-- ==== Sys2Proof/Word.lean ====
section
/-! DEFINITION. The one word type of the machine, the spec's Byte (00_scope R8): a value in 0 to 255 whose
arithmetic wraps modulo 256. Registers, memory cells, addresses, operands and the program counter are Bytes (R7). -/

namespace Sys2Proof

/-- R8: a Byte; `BitVec 8` arithmetic is the spec's masking `& 0xFF`. -/
abbrev Byte := BitVec 8

end Sys2Proof
end

