-- ==== Sys2Proof/Syntax.lean ====
section
/-! DEFINITION. The instructions as syntax: the four register names, the one encoding format of 30_encoding R65
as a record of fields, and `Instr`, one constructor per row of spec/opcode_table.json in the table's order.
A constructor carries only the operands its instruction reads; the fields the hardware ignores (R70, log 14)
are dropped by the decoder. -/

namespace Sys2Proof

/-- 10_state R14: the four general registers; 30_encoding R78: their names. -/
inductive Reg where
  | r0
  | r1
  | r2
  | r3
  deriving DecidableEq, Repr

/-- 30_encoding R65: the one instruction format, field by field. -/
structure Fields where
  /-- byte1 bits 7-4 -/
  opcode : BitVec 4
  /-- byte1 bits 3-2 -/
  rd : Reg
  /-- byte1 bits 1-0 -/
  rs : Reg
  /-- byte2 -/
  operand : Byte
  deriving DecidableEq, Repr

/-- 30_encoding R68 and R69: the sixteen rows of the opcode table. -/
inductive Instr where
  /-- 0x0, 40 R90 -/
  | nop
  /-- 0x1, 40 R91 -/
  | mov (rd rs : Reg)
  /-- 0x2, 42 R107 -/
  | unassigned2
  /-- 0x3, 40 R92 -/
  | add (rd rs : Reg)
  /-- 0x4, 40 R93 -/
  | sub (rd rs : Reg)
  /-- 0x5, 41 R98 -/
  | ldi (rd : Reg) (imm : Byte)
  /-- 0x6, 41 R99 -/
  | ldr (rd : Reg) (addr : Byte)
  /-- 0x7, 41 R100 -/
  | str (rs : Reg) (addr : Byte)
  /-- 0x8, 42 R104 -/
  | jmp (addr : Byte)
  /-- 0x9, 42 R107 -/
  | unassigned9
  /-- 0xA, 42 R107 -/
  | unassignedA
  /-- 0xB, 42 R107 -/
  | unassignedB
  /-- 0xC, 42 R107 -/
  | unassignedC
  /-- 0xD, 42 R107 -/
  | unassignedD
  /-- 0xE, 42 R105 -/
  | wait
  /-- 0xF, 42 R106 -/
  | hlt
  deriving DecidableEq, Repr

end Sys2Proof
end

