-- ==== Sys2Proof/WellFormed.lean ====
section
/-! DEFINITION. What is well formed. No term of `Instr` is ill formed: its registers are one of four and its
operands are Bytes by their types, as the hardware's fields are by their widths (60 R112: "no address/register
index is ever out of range"). What can be ill formed is an encoding that is not the canonical one: it runs, with
the ignored fields ignored (30_encoding R70), but the encoder and the assembler never make it (R73, R81). The
three checks below say which fields each opcode must leave zero, and `Instr.hasMnemonic` says which instructions
assembly text can name (R76). -/

namespace Sys2Proof

/-- R70: the opcodes that read the rd field: MOV, ADD, SUB, LDI, LDR. -/
def Fields.readsRd (f : Fields) : Bool :=
  f.opcode == 0x1#4 || f.opcode == 0x3#4 || f.opcode == 0x4#4 || f.opcode == 0x5#4 || f.opcode == 0x6#4

/-- R70: the opcodes that read the rs field: MOV, ADD, SUB, STR. -/
def Fields.readsRs (f : Fields) : Bool :=
  f.opcode == 0x1#4 || f.opcode == 0x3#4 || f.opcode == 0x4#4 || f.opcode == 0x7#4

/-- R70: the opcodes that read the operand byte: LDI, LDR, STR, JMP. -/
def Fields.readsOperand (f : Fields) : Bool :=
  f.opcode == 0x5#4 || f.opcode == 0x6#4 || f.opcode == 0x7#4 || f.opcode == 0x8#4

/-- R81: an rd field nothing reads is 0. -/
def Fields.rdCanonical (f : Fields) : Bool := f.readsRd || f.rd == .r0

/-- R81: an rs field nothing reads is 0. -/
def Fields.rsCanonical (f : Fields) : Bool := f.readsRs || f.rs == .r0

/-- R81: an operand byte nothing reads is 0x00. -/
def Fields.operandCanonical (f : Fields) : Bool := f.readsOperand || f.operand == 0x00#8

/-- R70, R81: the canonical encoding, every ignored field zero. -/
def Fields.canonical (f : Fields) : Bool :=
  f.rdCanonical && f.rsCanonical && f.operandCanonical

/-- R76: the ten instructions the assembly language can name; an unassigned opcode has no mnemonic. -/
def Instr.hasMnemonic : Instr → Bool
  | .nop => true
  | .mov _ _ => true
  | .unassigned2 => false
  | .add _ _ => true
  | .sub _ _ => true
  | .ldi _ _ => true
  | .ldr _ _ => true
  | .str _ _ => true
  | .jmp _ => true
  | .unassigned9 => false
  | .unassignedA => false
  | .unassignedB => false
  | .unassignedC => false
  | .unassignedD => false
  | .wait => true
  | .hlt => true

end Sys2Proof
end

