-- ==== Sys2Proof/Decode.lean ====
section
/-! DEFINITION. The decoder (30_encoding R63 to R72), total on any two bytes, and after it the encoder (R73).
No word is refused: all 65,536 decode (R71). Only a byte sequence too short for an instruction is rejected. -/

namespace Sys2Proof

/-- R66: field value i selects register Ri, with no further decoding. -/
def Reg.ofBits (b : BitVec 2) : Reg :=
  match b.getLsbD 1, b.getLsbD 0 with
  | false, false => .r0
  | false, true => .r1
  | true, false => .r2
  | true, true => .r3

/-- R66, R78: the index of a register, 0 to 3. -/
def Reg.toNat : Reg → Nat
  | .r0 => 0
  | .r1 => 1
  | .r2 => 2
  | .r3 => 3

/-- R67: `opcode = instr >> 4 & 0xF`, `rd = instr >> 2 & 0x3`, `rs = instr & 0x3`, and the operand is byte2. -/
def fieldsOf (byte1 byte2 : Byte) : Fields where
  opcode := byte1.extractLsb' 4 4
  rd := Reg.ofBits (byte1.extractLsb' 2 2)
  rs := Reg.ofBits (byte1.extractLsb' 0 2)
  operand := byte2

/-- R68, R69: the opcode map, written by the four opcode bits as the W patterns show them. -/
def Fields.instr (f : Fields) : Instr :=
  match f.opcode.getLsbD 3, f.opcode.getLsbD 2, f.opcode.getLsbD 1, f.opcode.getLsbD 0 with
  | false, false, false, false => .nop
  | false, false, false, true => .mov f.rd f.rs
  | false, false, true, false => .unassigned2
  | false, false, true, true => .add f.rd f.rs
  | false, true, false, false => .sub f.rd f.rs
  | false, true, false, true => .ldi f.rd f.operand
  | false, true, true, false => .ldr f.rd f.operand
  | false, true, true, true => .str f.rs f.operand
  | true, false, false, false => .jmp f.operand
  | true, false, false, true => .unassigned9
  | true, false, true, false => .unassignedA
  | true, false, true, true => .unassignedB
  | true, true, false, false => .unassignedC
  | true, true, false, true => .unassignedD
  | true, true, true, false => .wait
  | true, true, true, true => .hlt

/-- 10_state R19 step 3: the instruction that two fetched bytes are. -/
def decode (byte1 byte2 : Byte) : Instr := (fieldsOf byte1 byte2).instr

/-- Why a byte sequence holds no further instruction. -/
inductive DecodeReject where
  /-- R63: an instruction is exactly two bytes, and fewer than two are left. -/
  | truncated
  deriving DecidableEq, Repr

/-- The first instruction of a byte sequence and the rest of the sequence (R63, R64). -/
def decodeBytes : List Byte → Except DecodeReject (Instr × List Byte)
  | byte1 :: byte2 :: rest => .ok (decode byte1 byte2, rest)
  | [_] => .error .truncated
  | [] => .error .truncated

/-- 20_memory R48: a byte-code image as the sequence of its instructions, instruction N at bytes 2N and 2N+1. -/
def decodeImage : List Byte → Except DecodeReject (List Instr)
  | [] => .ok []
  | [_] => .error .truncated
  | byte1 :: byte2 :: rest =>
    match decodeImage rest with
    | .ok is => .ok (decode byte1 byte2 :: is)
    | .error e => .error e

/-- R79, R81: the fields of the canonical encoding of an instruction, every ignored field 0. -/
def encodeFields : Instr → Fields
  | .nop => ⟨0x0#4, .r0, .r0, 0x00#8⟩
  | .mov rd rs => ⟨0x1#4, rd, rs, 0x00#8⟩
  | .unassigned2 => ⟨0x2#4, .r0, .r0, 0x00#8⟩
  | .add rd rs => ⟨0x3#4, rd, rs, 0x00#8⟩
  | .sub rd rs => ⟨0x4#4, rd, rs, 0x00#8⟩
  | .ldi rd imm => ⟨0x5#4, rd, .r0, imm⟩
  | .ldr rd addr => ⟨0x6#4, rd, .r0, addr⟩
  | .str rs addr => ⟨0x7#4, .r0, rs, addr⟩
  | .jmp addr => ⟨0x8#4, .r0, .r0, addr⟩
  | .unassigned9 => ⟨0x9#4, .r0, .r0, 0x00#8⟩
  | .unassignedA => ⟨0xA#4, .r0, .r0, 0x00#8⟩
  | .unassignedB => ⟨0xB#4, .r0, .r0, 0x00#8⟩
  | .unassignedC => ⟨0xC#4, .r0, .r0, 0x00#8⟩
  | .unassignedD => ⟨0xD#4, .r0, .r0, 0x00#8⟩
  | .wait => ⟨0xE#4, .r0, .r0, 0x00#8⟩
  | .hlt => ⟨0xF#4, .r0, .r0, 0x00#8⟩

/-- R73: `byte1 = opcode * 16 + rd * 4 + rs` and `byte2 = operand`. -/
def Fields.bytes (f : Fields) : Byte × Byte :=
  (BitVec.ofNat 8 (f.opcode.toNat * 16 + f.rd.toNat * 4 + f.rs.toNat), f.operand)

/-- R73: the two bytes of the canonical encoding of an instruction. -/
def encode (i : Instr) : Byte × Byte := (encodeFields i).bytes

/-- R64: the encoding as it lies in memory, byte1 first. -/
def encodeBytes (i : Instr) : List Byte := [(encode i).1, (encode i).2]

/-- R64: the two bytes of the word `W = byte1 * 256 + byte2`. -/
def bytesOfWord (w : Nat) : Byte × Byte := (BitVec.ofNat 8 (w / 256), BitVec.ofNat 8 w)

/-- The instruction the decoder reads from a word numbered as spec/opcode_table.json numbers it (`W`, whose bits
15 to 12 are the opcode), bits at `nbits` and above being zero. No instruction is longer than 16 bits (R63). -/
def decodeTableWord (nbits w : Nat) : Option Instr :=
  if nbits ≤ 16 then
    let b := bytesOfWord (w % 2 ^ nbits)
    some (decode b.1 b.2)
  else none

end Sys2Proof
end

