-- ==== Sys2Proof/Config.lean ====
section
/-! DEFINITION. The parameters the spec fixes (00_scope R7) and the two values its decisions give
(92_eei_decisions D1, D2). Nothing the CPU does is left open, so there is no free value here. -/

namespace Sys2Proof.Config

/-- R7 MEMSIZE: the number of byte cells, addresses 0x00 to 0xFF. -/
def memSize : Nat := 256

/-- R7 IN_PORT: the address whose read is redirected to the input queue. -/
def inPort : Byte := 0xF0#8

/-- R7 OUT_PORT: the address whose write is redirected to the output log. -/
def outPort : Byte := 0xF1#8

/-- R7 MEM_RESET, 10_state R31: what every cell holds after reset, and so what an unlisted address reads as.
The source states no contents and 0x00 is the spec's decision D2; UNVERIFIED (log 2), unsafe. -/
def memReset : Byte := 0x00#8

/-- R7 IO_ATTACHED in the Computer composition, decision D1: the machine of all worked examples has its channel.
DESIGN CHOICE (log 1), safe: statements speak of both values of the field `State.ioAttached`. -/
def computerHasChannel : Bool := true

/-- R38, R60: what a read of the input port gives when nothing is queued. -/
def emptyInput : Byte := 0x00#8

/-- 10_state R21: the entry point, where pc stands after reset. -/
def entryPoint : Byte := 0x00#8

/-- 92 D10, the OPEN parameter FEED_WIDE_CHAR: how `feed_input` of text narrows a character whose code exceeds
255. The model takes it as an argument and never picks one (log 11), safe. -/
inductive FeedWideChar where
  /-- saturate at 255 -/
  | clamp
  /-- reduce modulo 256 -/
  | mask
  deriving DecidableEq, Repr

end Sys2Proof.Config
end

