-- ==== Sys2Proof/Machine/State.lean ====
section
/-! DEFINITION. The state of the block, exactly the components of 10_state R13, and the one build parameter the
model carries beside them. Plain data: two states can be compared and written out. -/

namespace Sys2Proof.Machine

/-- The reasons a step could stop with a fault. There are none: "CPU never raises", the set of exception causes is
empty (60 R112, R127), so this type has no constructor. -/
inductive Fault where
  deriving DecidableEq, Repr

/-- The reasons a step could be refused. -/
inductive Refusal where
  /-- An instruction without a meaning, by its mnemonic. Nobody raises it: all sixteen rows of the table have their
  meaning. It would be safe. -/
  | notModelled (mnemonic : String)
  deriving DecidableEq, Repr

/-- 10_state R14: the register file, four Bytes, none hard-wired. -/
structure Regs where
  r0 : Byte
  r1 : Byte
  r2 : Byte
  r3 : Byte
  deriving DecidableEq, Repr

/-- 10_state R30: the memory array, as the cells that differ from `Config.memReset`, by address. The canonical form
is `Memory.wf`. -/
abbrev Memory := List Host.Cell

/-- 10_state R13: the whole state. -/
structure State where
  /-- R14: x[0] to x[3] -/
  regs : Regs
  /-- R17: the program counter -/
  pc : Byte
  /-- R22: the Zero flag -/
  z : Bool
  /-- R22: the Carry flag, a borrow after SUB -/
  c : Bool
  /-- R27: set by HLT, cleared by nothing but reset -/
  halted : Bool
  /-- R30: the 256 backing cells -/
  mem : Memory
  /-- R32: the pending input, oldest first -/
  inQ : List Byte
  /-- R32: the emitted output, newest last -/
  outLog : List Byte
  /-- 00_scope R7 IO_ATTACHED, the build parameter, fixed for the life of the machine (10_state R36); the model's own
  field, so that one State type serves both builds. DESIGN CHOICE (log 1), safe. -/
  ioAttached : Bool
  deriving DecidableEq, Repr

/-- 70 R128: the machine right after reset, built with or without an IOChannel. Registers R16, pc R21, flags R25,
halted R27, memory R31, queue and log R33. -/
def State.resetOf (ioAttached : Bool) : State where
  regs := ⟨0x00#8, 0x00#8, 0x00#8, 0x00#8⟩
  pc := Config.entryPoint
  z := false
  c := false
  halted := false
  mem := []
  inQ := []
  outLog := []
  ioAttached := ioAttached

/-- 70 R128, decision D1: the Computer composition right after reset. -/
def State.reset : State := State.resetOf Config.computerHasChannel

end Sys2Proof.Machine
end

