-- ==== Sys2Proof/Machine/Ops.lean ====
section
/-! DEFINITION. The named operations on the register file, the program counter, the memory array and the bus, on
which every meaning is built. There is no operation for taking an exception and none for returning from one: the
machine has neither (60 R112, R117, R118). -/

namespace Sys2Proof.Machine

/-! Registers (10_state R14, R15). -/

/-- `x[r]` -/
def State.reg (s : State) (r : Reg) : Byte :=
  match r with
  | .r0 => s.regs.r0
  | .r1 => s.regs.r1
  | .r2 => s.regs.r2
  | .r3 => s.regs.r3

/-- One register of the file replaced. -/
def Regs.set (x : Regs) (r : Reg) (v : Byte) : Regs :=
  match r with
  | .r0 => { x with r0 := v }
  | .r1 => { x with r1 := v }
  | .r2 => { x with r2 := v }
  | .r3 => { x with r3 := v }

/-- `x[r] <- v` -/
def State.setReg (s : State) (r : Reg) (v : Byte) : State := { s with regs := s.regs.set r v }

/-! Flags and the halted bit (10_state R22, R27). -/

/-- `Z <- b` -/
def State.setZ (s : State) (b : Bool) : State := { s with z := b }

/-- `C <- b` -/
def State.setC (s : State) (b : Bool) : State := { s with c := b }

/-- `halted <- true`; no operation clears the bit (R27). -/
def State.halt (s : State) : State := { s with halted := true }

/-! Program counter (10_state R17, R18). -/

/-- `pc <- a` -/
def State.setPc (s : State) (a : Byte) : State := { s with pc := a }

/-- 10_state R19 step 2, the pre-advance `pc <- (pc + 2) mod 256`. -/
def State.advance (s : State) : State := s.setPc (s.pc + 2#8)

/-- 42 R105, undoing the pre-advance: `pc <- (pc - 2) mod 256`. -/
def State.rewind (s : State) : State := s.setPc (s.pc - 2#8)

/-! The memory array (10_state R30), without port redirection. -/

/-- The byte of an address: the listed one, or what an unlisted address reads as. -/
def Memory.cell : Memory → Nat → Byte
  | [], _ => Config.memReset
  | (k, v) :: m, a => if k = a then v else Memory.cell m a

/-- The memory without any entry for an address. -/
def Memory.erase (m : Memory) (a : Nat) : Memory := m.filter (fun e => e.1 ≠ a)

/-- An entry put before the first one at a higher address. -/
def Memory.place : Memory → Nat → Byte → Memory
  | [], a, v => [(a, v)]
  | e :: m, a, v => if a < e.1 then (a, v) :: e :: m else e :: Memory.place m a v

/-- Storing a byte: the old entry goes, and a new one is listed unless the byte is what an unlisted address reads as. -/
def Memory.store (m : Memory) (a : Nat) (v : Byte) : Memory :=
  if v = Config.memReset then m.erase a else (m.erase a).place a v

/-- The entries lie at strictly rising addresses, the first at `lo` or above and all below 256, and none equals what
an unlisted address reads as. -/
def Memory.wfFrom : Nat → Memory → Bool
  | _, [] => true
  | lo, (k, v) :: m =>
    decide (lo ≤ k) && decide (k < Config.memSize) && (v != Config.memReset) && Memory.wfFrom (k + 1) m

/-- The canonical form of a memory: equal memories are equal lists. -/
def Memory.wf (m : Memory) : Bool := Memory.wfFrom 0 m

/-- `mem[a]`, the backing cell, read directly (20_memory R46). -/
def State.cell (s : State) (a : Byte) : Byte := s.mem.cell a.toNat

/-- `mem[a] <- v`, the backing cell written directly. -/
def State.setCell (s : State) (a : Byte) (v : Byte) : State := { s with mem := s.mem.store a.toNat v }

/-! The IOChannel (20_memory R44). -/

/-- R44 `feed`: bytes join the tail of the input queue, in order. -/
def State.feed (s : State) (bytes : List Byte) : State := { s with inQ := s.inQ ++ bytes }

/-- R44 `pop_input` inside R38: the oldest byte and the queue without it, or 0x00 and no change. -/
def popInput (s : State) : Byte × State :=
  match s.inQ with
  | [] => (Config.emptyInput, s)
  | b :: q => (b, { s with inQ := q })

/-- R44 `emit`: a byte joins the end of the output log. -/
def State.emit (s : State) (v : Byte) : State := { s with outLog := s.outLog ++ [v] }

/-- 20_memory R43: the emptiness test of WAIT, which changes nothing. Without a channel it is always true (decision
D5, UNVERIFIED, log 5, unsafe). -/
def inEmpty (s : State) : Bool := !s.ioAttached || s.inQ.isEmpty

/-! The two bus primitives (20_memory R38 to R42), which fetch, LDR, STR and `load_program` share. -/

/-- Whether a read of the address is redirected to the input queue (R38, R41, R42). -/
def readsPort (s : State) (a : Byte) : Bool := s.ioAttached && a == Config.inPort

/-- Whether a write to the address is redirected to the output log (R39, R41, R42). -/
def writesPort (s : State) (a : Byte) : Bool := s.ioAttached && a == Config.outPort

/-- R38 `MemRead(a, 1)`: the byte read and the state after the read. -/
def memRead (a : Byte) (s : State) : Byte × State :=
  if readsPort s a then popInput s else (s.cell a, s)

/-- R39 `MemWrite(a, 1, v)`. -/
def memWrite (a v : Byte) (s : State) : State :=
  if writesPort s a then s.emit v else s.setCell a v

/-- R38 with R40: the Memory contract's `read` at any address, masked to 8 bits before any lookup. -/
def busRead (addr : Nat) (s : State) : Byte × State := memRead (BitVec.ofNat 8 addr) s

/-- R39 with R40: the Memory contract's `write` at any address and of any value, both masked to 8 bits. -/
def busWrite (addr value : Nat) (s : State) : State :=
  memWrite (BitVec.ofNat 8 addr) (BitVec.ofNat 8 value) s

/-! Fetch (10_state R19 step 1). -/

/-- What the fetch of one instruction gives. -/
structure Fetched where
  /-- the byte read at pc -/
  byte1 : Byte
  /-- the byte read at pc + 1 -/
  byte2 : Byte
  /-- the state after both reads, pc not yet advanced -/
  after : State
  deriving DecidableEq, Repr

/-- 10_state R19 step 1: byte1 at pc, then byte2 at `(pc + 1) mod 256`, both by MemRead (20_memory R45, R52). -/
def fetch (s : State) : Fetched where
  byte1 := (memRead s.pc s).1
  byte2 := (memRead (s.pc + 1#8) (memRead s.pc s).2).1
  after := (memRead (s.pc + 1#8) (memRead s.pc s).2).2

/-- A byte put where the next MemRead of an address finds it: in the backing cell, or at the head of the input queue
where the read is redirected. No move of the machine; it serves `State.withFetchWord` (log 19). -/
def State.offer (s : State) (a v : Byte) : State :=
  if readsPort s a then { s with inQ := v :: s.inQ } else s.setCell a v

end Sys2Proof.Machine
end

