-- ==== Sys2Proof/Machine/Operands.lean ====
section
/-! DEFINITION. The operand forms of 30_encoding R66 and 41 R97: the operand byte is an immediate, an absolute data
address or an absolute jump target, always as it stands: no sign extension, no scaling, no index. -/

namespace Sys2Proof.Machine

/-- R66: LDI's immediate value is the operand byte. -/
def immediate (operand : Byte) : Byte := operand

/-- 41 R97: the effective address of LDR and STR is the operand byte. -/
def effectiveAddress (operand : Byte) : Byte := operand

/-- 42 R104: JMP's target is the operand byte, whatever pc is. -/
def jumpTarget (operand : Byte) : Byte := operand

end Sys2Proof.Machine
end

