-- ==== Sys2Proof/Machine/Control.lean ====
section
/-! DEFINITION. The meanings of JMP, WAIT and HLT (42_control). -/

namespace Sys2Proof.Machine

/-- 42 R104: the pre-advance is overridden; nothing is saved. -/
def execJmp (addr : Byte) (s : State) : Host.Outcome State Fault Refusal :=
  .next (s.setPc (jumpTarget addr))

/-- 42 R105: an empty queue, as this step's own fetch left it (decision D22, log 9), rewinds pc; otherwise a NOP. The
queue is not popped. -/
def execWait (s : State) : Host.Outcome State Fault Refusal :=
  .next (if inEmpty s then s.rewind else s)

/-- 42 R106: `halted <- true`; pc rests two past the HLT. -/
def execHlt (s : State) : Host.Outcome State Fault Refusal := .next s.halt

end Sys2Proof.Machine
end

