-- ==== Sys2Proof/Machine/Flags.lean ====
section
/-! DEFINITION. The arithmetic and the flag computations (10_state R23, 40 R92 to R95): exact integers first, then
the 8-bit result and the flags from them. -/

namespace Sys2Proof.Machine

/-- 40 R92: ADD's `t`, in 0 to 510. -/
def sumExact (a b : Byte) : Nat := a.toNat + b.toNat

/-- 40 R93: SUB's `t`, in -255 to 255. -/
def differenceExact (a b : Byte) : Int := (a.toNat : Int) - (b.toNat : Int)

/-- R92: `t & 0xFF` -/
def sumByte (a b : Byte) : Byte := BitVec.ofNat 8 (sumExact a b)

/-- R93: `t & 0xFF`, in 0 to 255 also for negative `t`. -/
def differenceByte (a b : Byte) : Byte := BitVec.ofInt 8 (differenceExact a b)

/-- R92: `C <- (t > 255)` -/
def addCarry (a b : Byte) : Bool := decide (sumExact a b > 255)

/-- R93: `C <- (t < 0)`, a borrow occurred. -/
def subBorrow (a b : Byte) : Bool := decide (differenceExact a b < 0)

/-- R23: `Z` of a stored byte. -/
def zeroFlag (v : Byte) : Bool := v == 0x00#8

/-- R23: a register written and Z set from what was stored, as ADD, SUB, LDI and LDR do. -/
def State.setRegZ (s : State) (r : Reg) (v : Byte) : State := (s.setReg r v).setZ (zeroFlag v)

end Sys2Proof.Machine
end

