-- ==== Sys2Proof/Machine/LoadStore.lean ====
section
/-! DEFINITION. The meanings of LDI, LDR and STR (41_load_store). -/

namespace Sys2Proof.Machine

/-- 41 R98: Z is written, C is not. -/
def execLdi (rd : Reg) (imm : Byte) (s : State) : Host.Outcome State Fault Refusal :=
  .next (s.setRegZ rd (immediate imm))

/-- 41 R99: a MemRead, which may pop the input queue; Z is written, C is not. -/
def execLdr (rd : Reg) (addr : Byte) (s : State) : Host.Outcome State Fault Refusal :=
  let r := memRead (effectiveAddress addr) s
  .next (r.2.setRegZ rd r.1)

/-- 41 R100: a MemWrite of `x[rs]`, which may append to the output log; no register and no flag. -/
def execStr (rs : Reg) (addr : Byte) (s : State) : Host.Outcome State Fault Refusal :=
  .next (memWrite (effectiveAddress addr) (s.reg rs) s)

end Sys2Proof.Machine
end

