-- ==== Sys2Proof/Machine/RegisterOps.lean ====
section
/-! DEFINITION. The meanings of NOP, MOV, ADD and SUB (40_register_ops). As 40 R89 says, a meaning runs after both
fetch reads and the pre-advance: pc is already the instruction's address plus 2. -/

namespace Sys2Proof.Machine

/-- 40 R90: no effect. -/
def execNop (s : State) : Host.Outcome State Fault Refusal := .next s

/-- 40 R91: `x[rd] <- x[rs]`, no flag. -/
def execMov (rd rs : Reg) (s : State) : Host.Outcome State Fault Refusal :=
  .next (s.setReg rd (s.reg rs))

/-- 40 R92: both registers are read before any write. -/
def execAdd (rd rs : Reg) (s : State) : Host.Outcome State Fault Refusal :=
  let a := s.reg rd
  let b := s.reg rs
  .next ((s.setC (addCarry a b)).setRegZ rd (sumByte a b))

/-- 40 R93: both registers are read before any write. -/
def execSub (rd rs : Reg) (s : State) : Host.Outcome State Fault Refusal :=
  let a := s.reg rd
  let b := s.reg rs
  .next ((s.setC (subBorrow a b)).setRegZ rd (differenceByte a b))

end Sys2Proof.Machine
end

