-- ==== Sys2Proof/Machine/Unassigned.lean ====
section
/-! DEFINITION. The meanings of the six unassigned opcodes (42 R107): each is a no-op, not a fault. -/

namespace Sys2Proof.Machine

/-- 42 R107, opcode 0x2. -/
def execUnassigned2 (s : State) : Host.Outcome State Fault Refusal := .next s

/-- 42 R107, opcode 0x9. -/
def execUnassigned9 (s : State) : Host.Outcome State Fault Refusal := .next s

/-- 42 R107, opcode 0xA. -/
def execUnassignedA (s : State) : Host.Outcome State Fault Refusal := .next s

/-- 42 R107, opcode 0xB. -/
def execUnassignedB (s : State) : Host.Outcome State Fault Refusal := .next s

/-- 42 R107, opcode 0xC. -/
def execUnassignedC (s : State) : Host.Outcome State Fault Refusal := .next s

/-- 42 R107, opcode 0xD. -/
def execUnassignedD (s : State) : Host.Outcome State Fault Refusal := .next s

end Sys2Proof.Machine
end

