-- ==== Sys2Proof/Machine/Dispatch.lean ====
section
/-! DEFINITION. 10_state R19 step 4: dispatch, one arm per row of the opcode table. -/

namespace Sys2Proof.Machine

def exec (i : Instr) (s : State) : Host.Outcome State Fault Refusal :=
  match i with
  | .nop => Sys2Proof.Machine.execNop s
  | .mov rd rs => Sys2Proof.Machine.execMov rd rs s
  | .unassigned2 => Sys2Proof.Machine.execUnassigned2 s
  | .add rd rs => Sys2Proof.Machine.execAdd rd rs s
  | .sub rd rs => Sys2Proof.Machine.execSub rd rs s
  | .ldi rd imm => Sys2Proof.Machine.execLdi rd imm s
  | .ldr rd addr => Sys2Proof.Machine.execLdr rd addr s
  | .str rs addr => Sys2Proof.Machine.execStr rs addr s
  | .jmp addr => Sys2Proof.Machine.execJmp addr s
  | .unassigned9 => Sys2Proof.Machine.execUnassigned9 s
  | .unassignedA => Sys2Proof.Machine.execUnassignedA s
  | .unassignedB => Sys2Proof.Machine.execUnassignedB s
  | .unassignedC => Sys2Proof.Machine.execUnassignedC s
  | .unassignedD => Sys2Proof.Machine.execUnassignedD s
  | .wait => Sys2Proof.Machine.execWait s
  | .hlt => Sys2Proof.Machine.execHlt s

end Sys2Proof.Machine
end

