-- ==== Sys2Proof/Machine/Step.lean ====
section
/-! DEFINITION. The step function (10_state R19) and the placing of one instruction where the next step fetches it. -/

namespace Sys2Proof.Machine

/-- 10_state R19: nothing while halted (R29, decision D3, log 3); otherwise fetch, pre-advance, decode and dispatch. -/
def step (s : State) : Host.Outcome State Fault Refusal :=
  if s.halted then .next s
  else
    let f := fetch s
    exec (decode f.byte1 f.byte2) f.after.advance

/-- The state with one instruction placed where `step` fetches its next one: a running machine, byte2 offered where
the second fetch read finds it and byte1 where the first does (the input queue where a fetch read is redirected,
20_memory R52). Bits at `nbits` and above are zero. It stands for the host's load (log 19). -/
def State.withFetchWord (s : State) (nbits w : Nat) : State :=
  let b := bytesOfWord (w % 2 ^ nbits)
  (({ s with halted := false }).offer (s.pc + 1#8) b.2).offer s.pc b.1

end Sys2Proof.Machine
end

