-- ==== Sys2Proof/Machine/Assembler.lean ====
section
/-! DEFINITION. The assembler (30_encoding R74 to R88): pure text to bytes, in scope as the toolchain's syntax
(00_scope R4). A text is its list of characters. Where the spec leaves the tool's behaviour open (R87, 92 D13, D14)
the model refuses the text under a name of its own (93 U15, log 12). -/

namespace Sys2Proof.Machine

/-- Source text. -/
abbrev Text := List Char

/-- Why a text is not assembled. No partial program comes with it (R83). -/
inductive AsmError where
  /-- R83: an unrecognized mnemonic. -/
  | unknownMnemonic (token : Text)
  /-- R83: an unknown register name. -/
  | unknownRegister (token : Text)
  /-- R83, R85: a numeric operand that is not a decimal integer, a bracketed one among them (decision D12, log 17). -/
  | malformedNumber (token : Text)
  /-- R83: an operand the mnemonic needs is missing. -/
  | missingOperand (mnemonic : Text)
  /-- R87, ASM_EXTRA_TOKENS (D13): open in the spec whether more tokens are ignored or abort; refused, safe. -/
  | openExtraToken (token : Text)
  /-- R87, ASM_REG_CASE (D14): open in the spec whether `r0` is R0; refused, safe. -/
  | openRegisterCase (token : Text)
  /-- R87 (D14): open in the spec whether a leading sign is accepted; refused, safe. -/
  | openSign (token : Text)
  /-- R87 (D14): open in the spec whether an indented `;` line is a comment; refused, safe. -/
  | openIndentedComment
  /-- A line of commas alone is neither blank nor has it a first token; refused, safe (log 16). -/
  | openNoToken
  deriving DecidableEq, Repr

/-- R75: white space between tokens, a comma counting as white space (log 16). -/
def isSeparator (ch : Char) : Bool := ch.isWhitespace || ch == ','

/-- A text cut at every character of a kind; the pieces may be empty. -/
def splitText (cut : Char → Bool) : Text → List Text
  | [] => [[]]
  | ch :: t =>
    if cut ch then [] :: splitText cut t
    else
      match splitText cut t with
      | [] => [[ch]]
      | p :: ps => (ch :: p) :: ps

/-- R75: the lines of a text, separated by the newline character. -/
def sourceLines (text : Text) : List Text := splitText (· == '\n') text

/-- R75: the tokens of a line. -/
def tokens (line : Text) : List Text := (splitText isSeparator line).filter (fun t => !t.isEmpty)

/-- R75: a blank line, or a line starting with `;`, is skipped. -/
def skipped (line : Text) : Bool := line.all Char.isWhitespace || line.head? == some ';'

/-- R75: the first token uppercased (ASCII letters, log 16). -/
def uppercased (token : Text) : Text := token.map Char.toUpper

/-- R78: the four register names; another case of them is left open (R87). -/
def registerOf (token : Text) : Except AsmError Reg :=
  match token with
  | ['R', '0'] => .ok .r0
  | ['R', '1'] => .ok .r1
  | ['R', '2'] => .ok .r2
  | ['R', '3'] => .ok .r3
  | ['r', '0'] => .error (.openRegisterCase token)
  | ['r', '1'] => .error (.openRegisterCase token)
  | ['r', '2'] => .error (.openRegisterCase token)
  | ['r', '3'] => .error (.openRegisterCase token)
  | _ => .error (.unknownRegister token)

/-- A non-empty run of decimal digits. -/
def allDigits (token : Text) : Bool := !token.isEmpty && token.all Char.isDigit

/-- The value of a run of decimal digits, read on from the value of the digits before it. -/
def decimalValue : Nat → Text → Nat
  | acc, [] => acc
  | acc, ch :: t => decimalValue (acc * 10 + (ch.toNat - '0'.toNat)) t

/-- Whether a token is a decimal integer with a leading sign, which the spec leaves open (R87). -/
def isSigned : Text → Bool
  | '-' :: t => allDigits t
  | '+' :: t => allDigits t
  | _ => false

/-- R82: a decimal integer, masked to a byte. -/
def numberOf (token : Text) : Except AsmError Byte :=
  if allDigits token then .ok (BitVec.ofNat 8 (decimalValue 0 token))
  else if isSigned token then .error (.openSign token)
  else .error (.malformedNumber token)

/-- What an instruction line must have nothing of after its operands (R87). -/
def noMore (rest : List Text) (i : Instr) : Except AsmError Instr :=
  match rest with
  | [] => .ok i
  | t :: _ => .error (.openExtraToken t)

/-- R79: a line `MNEMONIC register register`. -/
def twoRegisters (name : Text) (make : Reg → Reg → Instr) (operands : List Text) : Except AsmError Instr :=
  match operands with
  | t1 :: t2 :: rest => do
    let a ← registerOf t1
    let b ← registerOf t2
    noMore rest (make a b)
  | [_] => .error (.missingOperand name)
  | [] => .error (.missingOperand name)

/-- R79: a line `MNEMONIC register number`. -/
def registerNumber (name : Text) (make : Reg → Byte → Instr) (operands : List Text) : Except AsmError Instr :=
  match operands with
  | t1 :: t2 :: rest => do
    let r ← registerOf t1
    let n ← numberOf t2
    noMore rest (make r n)
  | [_] => .error (.missingOperand name)
  | [] => .error (.missingOperand name)

/-- R79: a line `MNEMONIC number`. -/
def oneNumber (name : Text) (make : Byte → Instr) (operands : List Text) : Except AsmError Instr :=
  match operands with
  | t1 :: rest => do
    let n ← numberOf t1
    noMore rest (make n)
  | [] => .error (.missingOperand name)

/-- R76, R79: the ten mnemonics and how each one's operand tokens fill the fields; STR's register is the rs field
(decision D19). -/
def lineInstr (line : Text) : Except AsmError Instr :=
  match tokens line with
  | [] => .error .openNoToken
  | first :: operands =>
    match uppercased first with
    | ['N', 'O', 'P'] => noMore operands .nop
    | ['M', 'O', 'V'] => twoRegisters ['M', 'O', 'V'] .mov operands
    | ['A', 'D', 'D'] => twoRegisters ['A', 'D', 'D'] .add operands
    | ['S', 'U', 'B'] => twoRegisters ['S', 'U', 'B'] .sub operands
    | ['L', 'D', 'I'] => registerNumber ['L', 'D', 'I'] .ldi operands
    | ['L', 'D', 'R'] => registerNumber ['L', 'D', 'R'] .ldr operands
    | ['S', 'T', 'R'] => registerNumber ['S', 'T', 'R'] .str operands
    | ['J', 'M', 'P'] => oneNumber ['J', 'M', 'P'] .jmp operands
    | ['W', 'A', 'I', 'T'] => noMore operands .wait
    | ['H', 'L', 'T'] => noMore operands .hlt
    | _ =>
      if first.head? == some ';' then .error .openIndentedComment
      else .error (.unknownMnemonic first)

/-- R75: the lines that hold an instruction, in order. -/
def instrLines (text : Text) : List Text := (sourceLines text).filter (fun l => !skipped l)

/-- R80, R83: the instructions of the lines, in order, or the failure of the first line that fails. -/
def assembleLines : List Text → Except AsmError (List Instr)
  | [] => .ok []
  | l :: ls => do
    let i ← lineInstr l
    let is ← assembleLines ls
    return i :: is

/-- R74 `assemble(source_text)`: the concatenation of the two bytes of every instruction, in source order (R80). -/
def assemble (text : Text) : Except AsmError (List Byte) := do
  let is ← assembleLines (instrLines text)
  return is.flatMap encodeBytes

/-! Writing an instruction as canonical assembly text (R77, R87). -/

/-- R78 -/
def registerText : Reg → Text
  | .r0 => ['R', '0']
  | .r1 => ['R', '1']
  | .r2 => ['R', '2']
  | .r3 => ['R', '3']

/-- One decimal digit. -/
def digit (n : Nat) : Char := Char.ofNat ('0'.toNat + n % 10)

/-- R82: a byte as an unsigned decimal number without leading zeros. -/
def numberText (b : Byte) : Text :=
  if b.toNat < 10 then [digit b.toNat]
  else if b.toNat < 100 then [digit (b.toNat / 10), digit b.toNat]
  else [digit (b.toNat / 100), digit (b.toNat / 10), digit b.toNat]

/-- R77: a mnemonic with two operands, written `NAME A, B`. -/
def twoOperandText (name a b : Text) : Text := name ++ ' ' :: a ++ ',' :: ' ' :: b

/-- R77, R87: the canonical line of an instruction; an unassigned opcode has none (R76). -/
def instrText : Instr → Option Text
  | .nop => some ['N', 'O', 'P']
  | .mov rd rs => some (twoOperandText ['M', 'O', 'V'] (registerText rd) (registerText rs))
  | .unassigned2 => none
  | .add rd rs => some (twoOperandText ['A', 'D', 'D'] (registerText rd) (registerText rs))
  | .sub rd rs => some (twoOperandText ['S', 'U', 'B'] (registerText rd) (registerText rs))
  | .ldi rd imm => some (twoOperandText ['L', 'D', 'I'] (registerText rd) (numberText imm))
  | .ldr rd addr => some (twoOperandText ['L', 'D', 'R'] (registerText rd) (numberText addr))
  | .str rs addr => some (twoOperandText ['S', 'T', 'R'] (registerText rs) (numberText addr))
  | .jmp addr => some (['J', 'M', 'P'] ++ ' ' :: numberText addr)
  | .unassigned9 => none
  | .unassignedA => none
  | .unassignedB => none
  | .unassignedC => none
  | .unassignedD => none
  | .wait => some ['W', 'A', 'I', 'T']
  | .hlt => some ['H', 'L', 'T']

/-- The listing of a program, one canonical line each, or nothing where some instruction has no mnemonic. -/
def listing : List Instr → Option Text
  | [] => some []
  | i :: is =>
    match instrText i, listing is with
    | some l, some t => some (l ++ '\n' :: t)
    | _, _ => none

end Sys2Proof.Machine
end

