-- ==== Sys2Proof/Machine/HostInterface.lean ====
section
/-! DEFINITION. The host's operations on the block (70 R131): reset, `load_program`, `step`, `run`, `feed_input` and
the read accessors. They happen only between steps (70 R138, log 10). -/

namespace Sys2Proof.Machine

/-- 70 R128: total reconstruction, in the same build (decision D16). -/
def hostReset (s : State) : State := State.resetOf s.ioAttached

/-- 70 R132, the loop of `load_program`: the bytes written from address `i` on, each through MemWrite. -/
def loadFrom : Nat → List Byte → State → State
  | _, [], s => s
  | i, b :: bs, s => loadFrom (i + 1) bs (busWrite i b.toNat s)

/-- 70 R132 `load_program(bytes)`: sequentially from address 0, with no length check (decision D15, log 8). -/
def loadProgram (bytes : List Byte) (s : State) : State := loadFrom 0 bytes s

/-- 70 R136 `feed_input` at the boundary of the block: `in_q <- in_q ++ bytes`. -/
def feedInput (bytes : List Byte) (s : State) : State := s.feed bytes

/-- 70 R136: the byte of one fed character: its code, or for a code above 255 what the OPEN parameter
FEED_WIDE_CHAR says (decision D10, log 11). -/
def feedByte (wide : Config.FeedWideChar) (ch : Char) : Byte :=
  if ch.toNat ≤ 255 then BitVec.ofNat 8 ch.toNat
  else
    match wide with
    | .clamp => 0xFF#8
    | .mask => BitVec.ofNat 8 ch.toNat

/-- 70 R136 `feed_input(text)`. -/
def feedText (wide : Config.FeedWideChar) (text : List Char) (s : State) : State :=
  feedInput (text.map (feedByte wide)) s

/-- 70 R134: `n` calls of `step`, one after the other. -/
def stepN : Nat → State → Host.Outcome State Fault Refusal
  | 0, s => .next s
  | n + 1, s =>
    match step s with
    | .next t => stepN n t
    | .fault r => .fault r
    | .refused r => .refused r

/-- 70 R135 `run()`, cut after `n` steps: `step` again and again until `halted`. -/
def runFor : Nat → State → Host.Outcome State Fault Refusal
  | 0, s => .next s
  | n + 1, s =>
    if s.halted then .next s
    else
      match step s with
      | .next t => runFor n t
      | .fault r => .fault r
      | .refused r => .refused r

/-- 00_scope R12, 70 R135: `run` called at `s` returns, and leaves the machine at `t`. -/
def RunReturns (s t : State) : Prop := ∃ n, runFor n s = .next t ∧ t.halted = true

/-- 70 R137: everything the read accessors show; the pending input is not among it (91 N25). -/
structure HostView where
  x0 : Byte
  x1 : Byte
  x2 : Byte
  x3 : Byte
  pc : Byte
  z : Bool
  c : Bool
  halted : Bool
  /-- the 256 backing cells, by address -/
  cells : List Byte
  output : List Byte
  deriving DecidableEq, Repr

/-- 70 R137, 20_memory R46: the accessors read the state and change nothing; the memory accessor reads the backing
cells, not the ports (decision D6, log 6). -/
def observe (s : State) : HostView where
  x0 := s.reg .r0
  x1 := s.reg .r1
  x2 := s.reg .r2
  x3 := s.reg .r3
  pc := s.pc
  z := s.z
  c := s.c
  halted := s.halted
  cells := (List.range Config.memSize).map (fun a => s.cell (BitVec.ofNat 8 a))
  output := s.outLog

/-- 70 R131, R138: what may happen next to the block, the CPU's step or a move of the host. -/
inductive Move where
  /-- R134 -/
  | step
  /-- R136 -/
  | feed (bytes : List Byte)
  /-- R132 -/
  | load (bytes : List Byte)
  /-- R128 -/
  | reset
  deriving DecidableEq, Repr

/-- One move. -/
def applyMove (m : Move) (s : State) : Host.Outcome State Fault Refusal :=
  match m with
  | .step => step s
  | .feed bytes => .next (feedInput bytes s)
  | .load bytes => .next (loadProgram bytes s)
  | .reset => .next (hostReset s)

/-- A schedule: moves one after the other, any of them between any two steps (R138, decision D9, log 10). -/
def applyMoves : List Move → State → Host.Outcome State Fault Refusal
  | [], s => .next s
  | m :: ms, s =>
    match applyMove m s with
    | .next t => applyMoves ms t
    | .fault r => .fault r
    | .refused r => .refused r

end Sys2Proof.Machine
end

