-- ==== Sys2Proof/Safety.lean ====
section
/-! DEFINITION. The vocabulary of the claims: what a state invariant is here, and what it means that a part of the
state is the same in two states. -/

namespace Sys2Proof.Machine

/-- What every reachable state satisfies: the memory is in its canonical list form, every address below 256, which is
the model's own (log 2, DESIGN CHOICE), and a machine without a channel has emitted nothing (20_memory R42). Of
10_state R35, (a) and (b) hold by the type Byte. -/
def State.Inv (s : State) : Prop := s.mem.wf = true ∧ (s.ioAttached = false → s.outLog = [])

/-- All four registers are the same. -/
def SameRegs (s t : State) : Prop := ∀ r, t.reg r = s.reg r

/-- Every register but one is the same. -/
def SameRegsBut (r : Reg) (s t : State) : Prop := ∀ q, q ≠ r → t.reg q = s.reg q

/-- Both flags are the same. -/
def SameFlags (s t : State) : Prop := t.z = s.z ∧ t.c = s.c

/-- Every backing cell is the same. -/
def SameCells (s t : State) : Prop := ∀ a, t.cell a = s.cell a

/-- Every backing cell but one is the same. -/
def SameCellsBut (a : Byte) (s t : State) : Prop := ∀ b, b ≠ a → t.cell b = s.cell b

/-- Input queue, output log and build are the same. -/
def SameIO (s t : State) : Prop := t.inQ = s.inQ ∧ t.outLog = s.outLog ∧ t.ioAttached = s.ioAttached

/-- `halted`, the memory array and the IOChannel are the same: an instruction that works on registers alone. -/
def SameOutside (s t : State) : Prop := t.halted = s.halted ∧ SameCells s t ∧ SameIO s t

/-- byte1 has the three fields: `byte1 = opcode * 16 + rd * 4 + rs` (30_encoding R63, R65). -/
def HasFields (byte1 : Byte) (opcode : Nat) (rd rs : Reg) : Prop :=
  byte1.toNat = opcode * 16 + rd.toNat * 4 + rs.toNat

/-- The canonical encoding of an instruction has these fields and this operand byte (R73). -/
def EncodedAs (i : Instr) (opcode : Nat) (rd rs : Reg) (operand : Byte) : Prop :=
  HasFields (encode i).1 opcode rd rs ∧ (encode i).2 = operand

/-- The bytes a running machine fetches and the state both reads leave (10_state R19 step 1). -/
def Fetches (s : State) (byte1 byte2 : Byte) (after : State) : Prop :=
  s.halted = false ∧ fetch s = ⟨byte1, byte2, after⟩

/-- No fetch read of the step is redirected to the input queue (20_memory R52, 70 R144). -/
def FetchAvoidsPort (s : State) : Prop := readsPort s s.pc = false ∧ readsPort s (s.pc + 1#8) = false

/-- Two states that differ at most in their flags. -/
def EqualButFlags (s t : State) : Prop := { s with z := t.z, c := t.c } = t

/-- Two states that differ at most in what one backing cell holds. -/
def EqualButCell (a : Byte) (s t : State) : Prop := { s with mem := t.mem } = t ∧ SameCellsBut a s t

end Sys2Proof.Machine
end

