-- ==== Sys2Proof/Certificates/Slice0/Obligations.lean ====
section
/-! DEFINITION. The statements for the provers. A docstring names the rule of spec/ a statement formalises; where a
statement rests on one of the spec's own decisions, or on the model's choice, it says so and names the log entry. -/

open Sys2Proof Sys2Proof.Machine

/-! ## Reset and the step -/

/-- 10_state R16, R21, R25, R33: the values the source states for reset. Memory is `ResetMemoryIsZero`, halted
`HaltedIsSetOnlyByHltAndClearedOnlyByReset`. -/
def Obligations.ResetValues : Prop :=
  (∀ r, State.reset.reg r = 0x00#8) ∧ State.reset.pc = 0x00#8 ∧
  State.reset.z = false ∧ State.reset.c = false ∧
  State.reset.inQ = [] ∧ State.reset.outLog = []

/-- 10_state R31, 42 R111: every cell is 0x00 after reset, in both builds, so that memory nobody has written executes as
NOPs wherever pc stands. The spec's own decision D2 (log 2), not a statement of the source. -/
def Obligations.ResetMemoryIsZero : Prop :=
  (∀ (io : Bool) (a : Byte), (State.resetOf io).cell a = 0x00#8) ∧
  (∀ (io : Bool) (a : Byte),
    step { State.resetOf io with pc := a } = .next { State.resetOf io with pc := a + 2#8 })

/-- The model's invariant holds at reset, in both builds: the canonical list form of memory is the model's own (log 2,
DESIGN CHOICE), not a rule of the spec, and that reset lists no cell is decision D2 (10_state R31, log 2). That the
reset log is empty is R33. -/
def Obligations.ResetMeetsInvariant : Prop :=
  State.reset.Inv ∧ ∀ io, (State.resetOf io).Inv

/-- 10_state R19: a running machine reads two bytes at pc and pc + 1 by MemRead, advances pc by 2, decodes and
dispatches; nothing else. A halted one does nothing (R29, the spec's decision D3, log 3). -/
def Obligations.StepRunsTheDecodedInstruction : Prop :=
  ∀ s : State,
    (s.halted = true → step s = .next s) ∧
    (s.halted = false → ∀ byte1 byte2 s1 s2,
      memRead s.pc s = (byte1, s1) → memRead (s.pc + 1#8) s1 = (byte2, s2) →
      step s = exec (decode byte1 byte2) { s2 with pc := s.pc + 2#8 })

/-- 60 R112: the set of exception causes is empty, and the machine answers a next state from every state, for every
instruction and for every step. -/
def Obligations.MachineNeverFaultsOrRefuses : Prop :=
  (Fault → False) ∧
  (∀ (i : Instr) (s : State), ∃ t, exec i s = .next t) ∧
  (∀ s : State, ∃ t, step s = .next t)

/-- 60 R127, 70 R138: no schedule of steps and host moves stops the machine. The moves are the model's (log 10),
feeding without a channel among them (log 18). -/
def Obligations.EveryScheduleAnswers : Prop :=
  ∀ (ms : List Move) (s : State), ∃ t, applyMoves ms s = .next t

/-- 10_state R20, the whole table: pc after a step, for an instruction fetched at pc. Its last row, the halted machine,
rests on decision D3 (log 3). -/
def Obligations.ProgramCounterAfterStep : Prop :=
  (∀ s byte1 byte2 after op rd rs, Fetches s byte1 byte2 after → op < 16 → HasFields byte1 op rd rs →
    ∃ t, step s = .next t ∧
      (op = 8 → t.pc = byte2) ∧
      (op = 14 → inEmpty after = false → t.pc = s.pc + 2#8) ∧
      (op = 14 → inEmpty after = true → t.pc = s.pc) ∧
      (op ≠ 8 → op ≠ 14 → t.pc = s.pc + 2#8)) ∧
  (∀ s : State, s.halted = true → ∃ t, step s = .next t ∧ t.pc = s.pc)

/-- 10_state R14: four registers, none hard-wired, no two of them the same storage. -/
def Obligations.RegistersAreIndependent : Prop :=
  ∀ (s : State) (r q : Reg) (v : Byte),
    (s.setReg r v).reg r = v ∧ (q ≠ r → (s.setReg r v).reg q = s.reg q) ∧
    ((s.setReg r v).pc = s.pc ∧ SameFlags s (s.setReg r v) ∧ SameOutside s (s.setReg r v))

/-! ## Encoding -/

/-- 30_encoding R67: the fields of byte1 are opcode, rd and rs at bits 7-4, 3-2 and 1-0, and decode is total: every
byte1 has fields, and for all of them the opcode alone selects one of ten instructions or a no-op. -/
def Obligations.DecodeByOpcode : Prop :=
  (∀ byte1 : Byte, ∃ rd rs : Reg, rd.toNat = byte1.toNat / 4 % 4 ∧ rs.toNat = byte1.toNat % 4 ∧
    byte1.toNat / 16 < 16 ∧ HasFields byte1 (byte1.toNat / 16) rd rs) ∧
  (∀ (byte1 byte2 : Byte) (op : Nat) (rd rs : Reg), HasFields byte1 op rd rs →
    (op = 0 → decode byte1 byte2 = .nop) ∧
    (op = 1 → decode byte1 byte2 = .mov rd rs) ∧
    (op = 2 → decode byte1 byte2 = .unassigned2) ∧
    (op = 3 → decode byte1 byte2 = .add rd rs) ∧
    (op = 4 → decode byte1 byte2 = .sub rd rs) ∧
    (op = 5 → decode byte1 byte2 = .ldi rd byte2) ∧
    (op = 6 → decode byte1 byte2 = .ldr rd byte2) ∧
    (op = 7 → decode byte1 byte2 = .str rs byte2) ∧
    (op = 8 → decode byte1 byte2 = .jmp byte2) ∧
    (op = 9 → decode byte1 byte2 = .unassigned9) ∧
    (op = 10 → decode byte1 byte2 = .unassignedA) ∧
    (op = 11 → decode byte1 byte2 = .unassignedB) ∧
    (op = 12 → decode byte1 byte2 = .unassignedC) ∧
    (op = 13 → decode byte1 byte2 = .unassignedD) ∧
    (op = 14 → decode byte1 byte2 = .wait) ∧
    (op = 15 → decode byte1 byte2 = .hlt))

/-- 30_encoding R67, R73: decoding the encoding of any instruction, every operand at every value, gives it back. -/
def Obligations.DecodeInvertsEncode : Prop :=
  ∀ i : Instr, decode (encode i).1 (encode i).2 = i

/-- 30_encoding R70, R73, R81: a word encodes what it decodes to exactly when its ignored fields are zero. -/
def Obligations.EncodeInvertsDecodeOnCanonicalWords : Prop :=
  ∀ byte1 byte2 : Byte,
    (fieldsOf byte1 byte2).canonical = true ↔ encode (decode byte1 byte2) = (byte1, byte2)

/-- 20_memory R48, 30_encoding R73: an image of encoded instructions reads back as those instructions, and a sequence
of an odd number of bytes is no image. -/
def Obligations.ImageReadsBack : Prop :=
  (∀ is : List Instr, decodeImage (is.flatMap encodeBytes) = .ok is) ∧
  (∀ bytes : List Byte, bytes.length % 2 = 1 ↔ decodeImage bytes = .error .truncated)

/-- 30_encoding R88, vectors B1: a few words, one of each family and two with ignored fields set. -/
def Obligations.SampleWordsDecode : Prop :=
  decode 0x1C#8 0x00#8 = .mov .r3 .r0 ∧ decode 0x31#8 0x00#8 = .add .r0 .r1 ∧
  decode 0x41#8 0x00#8 = .sub .r0 .r1 ∧ decode 0x57#8 0x09#8 = .ldi .r1 0x09#8 ∧
  decode 0x64#8 0x10#8 = .ldr .r1 0x10#8 ∧ decode 0x74#8 0x10#8 = .str .r0 0x10#8 ∧
  decode 0x80#8 0xFE#8 = .jmp 0xFE#8 ∧ decode 0xE0#8 0x00#8 = .wait ∧
  decode 0xF0#8 0x00#8 = .hlt ∧ decode 0x9F#8 0xFF#8 = .unassigned9

/-! ## The register instructions -/

/-- 40 R90: NOP has no effect; its whole step moves pc by 2 and takes an input byte where a fetch read is redirected.
Opcode 0x0, canonical 00 00. -/
def Obligations.NopOnlyAdvances : Prop :=
  (∀ s, exec .nop s = .next s) ∧
  (∀ s byte1 byte2 after rd rs, Fetches s byte1 byte2 after → HasFields byte1 0 rd rs →
    step s = .next { s with pc := s.pc + 2#8, inQ := after.inQ } ∧
    (FetchAvoidsPort s → after.inQ = s.inQ)) ∧
  (∀ byte1 byte2 rd rs, HasFields byte1 0 rd rs → decode byte1 byte2 = .nop) ∧
  EncodedAs .nop 0 .r0 .r0 0x00#8

/-- 40 R91: MOV copies a register and writes no flag. Opcode 0x1. -/
def Obligations.MovCopiesRegister : Prop :=
  (∀ rd rs s, ∃ t, exec (.mov rd rs) s = .next t ∧
    t.reg rd = s.reg rs ∧ SameRegsBut rd s t ∧ (rd = rs → SameRegs s t) ∧
    SameFlags s t ∧ t.pc = s.pc ∧ SameOutside s t) ∧
  (∀ byte1 byte2 rd rs, HasFields byte1 1 rd rs → decode byte1 byte2 = .mov rd rs) ∧
  (∀ rd rs, EncodedAs (.mov rd rs) 1 rd rs 0x00#8)

/-- 40 R92: ADD writes the sum modulo 256, Carry exactly if the sum exceeds 255, Zero from the stored byte, and nothing
else; the old flags are no input. Opcode 0x3. -/
def Obligations.AddWrapsAndSetsFlags : Prop :=
  (∀ rd rs s, ∃ t, exec (.add rd rs) s = .next t ∧
    (t.reg rd).toNat = ((s.reg rd).toNat + (s.reg rs).toNat) % 256 ∧
    (t.c = true ↔ (s.reg rd).toNat + (s.reg rs).toNat > 255) ∧
    (t.z = true ↔ t.reg rd = 0x00#8) ∧
    SameRegsBut rd s t ∧ t.pc = s.pc ∧ SameOutside s t) ∧
  (∀ byte1 byte2 rd rs, HasFields byte1 3 rd rs → decode byte1 byte2 = .add rd rs) ∧
  (∀ rd rs, EncodedAs (.add rd rs) 3 rd rs 0x00#8)

/-- 40 R93: SUB writes the difference modulo 256, Carry exactly if a borrow occurred, Zero from the stored byte, and
nothing else. Opcode 0x4. -/
def Obligations.SubWrapsAndSetsBorrow : Prop :=
  (∀ rd rs s, ∃ t, exec (.sub rd rs) s = .next t ∧
    ((t.reg rd).toNat : Int) = (((s.reg rd).toNat : Int) - ((s.reg rs).toNat : Int)) % 256 ∧
    (t.c = true ↔ ((s.reg rd).toNat : Int) - ((s.reg rs).toNat : Int) < 0) ∧
    (t.z = true ↔ t.reg rd = 0x00#8) ∧
    SameRegsBut rd s t ∧ t.pc = s.pc ∧ SameOutside s t) ∧
  (∀ byte1 byte2 rd rs, HasFields byte1 4 rd rs → decode byte1 byte2 = .sub rd rs) ∧
  (∀ rd rs, EncodedAs (.sub rd rs) 4 rd rs 0x00#8)

/-- 40 R95: which flag pairs ADD and SUB leave, and that SUB never leaves both flags set. -/
def Obligations.ArithmeticFlagPairs : Prop :=
  ∀ (rd rs : Reg) (s : State), ∃ t u, exec (.add rd rs) s = .next t ∧ exec (.sub rd rs) s = .next u ∧
    (t.z = false ∧ t.c = false ↔
      0 < (s.reg rd).toNat + (s.reg rs).toNat ∧ (s.reg rd).toNat + (s.reg rs).toNat ≤ 255) ∧
    (t.z = true ∧ t.c = false ↔ s.reg rd = 0x00#8 ∧ s.reg rs = 0x00#8) ∧
    (t.z = false ∧ t.c = true ↔ 257 ≤ (s.reg rd).toNat + (s.reg rs).toNat) ∧
    (t.z = true ∧ t.c = true ↔ (s.reg rd).toNat + (s.reg rs).toNat = 256) ∧
    (u.z = false ∧ u.c = false ↔ (s.reg rs).toNat < (s.reg rd).toNat) ∧
    (u.z = true ∧ u.c = false ↔ s.reg rd = s.reg rs) ∧
    (u.z = false ∧ u.c = true ↔ (s.reg rd).toNat < (s.reg rs).toNat) ∧
    ¬(u.z = true ∧ u.c = true)

/-! ## Load and store -/

/-- 41 R98: LDI writes the operand byte and Zero, not Carry, and accesses no memory. Opcode 0x5, canonical rs 0. -/
def Obligations.LdiLoadsImmediate : Prop :=
  (∀ rd imm s, ∃ t, exec (.ldi rd imm) s = .next t ∧
    t.reg rd = imm ∧ (t.z = true ↔ imm = 0x00#8) ∧ t.c = s.c ∧
    SameRegsBut rd s t ∧ t.pc = s.pc ∧ SameOutside s t) ∧
  (∀ byte1 byte2 rd rs, HasFields byte1 5 rd rs → decode byte1 byte2 = .ldi rd byte2) ∧
  (∀ rd imm, EncodedAs (.ldi rd imm) 5 rd .r0 imm)

/-- 41 R99: LDR writes the byte MemRead gives at the operand address and Zero, not Carry. At 0xF0 with a channel it
pops the oldest input byte, or loads 0x00 if there is none; everywhere else it loads the backing cell. Opcode 0x6. -/
def Obligations.LdrLoadsByte : Prop :=
  (∀ rd addr s, ∃ t, exec (.ldr rd addr) s = .next t ∧
    (s.ioAttached = true → addr = 0xF0#8 → s.inQ = [] → t.reg rd = 0x00#8 ∧ t.inQ = []) ∧
    (∀ b q, s.ioAttached = true → addr = 0xF0#8 → s.inQ = b :: q → t.reg rd = b ∧ t.inQ = q) ∧
    (¬(s.ioAttached = true ∧ addr = 0xF0#8) → t.reg rd = s.cell addr ∧ t.inQ = s.inQ) ∧
    (t.z = true ↔ t.reg rd = 0x00#8) ∧ t.c = s.c ∧
    SameRegsBut rd s t ∧ t.pc = s.pc ∧ t.halted = s.halted ∧ SameCells s t ∧
    t.outLog = s.outLog ∧ t.ioAttached = s.ioAttached) ∧
  (∀ byte1 byte2 rd rs, HasFields byte1 6 rd rs → decode byte1 byte2 = .ldr rd byte2) ∧
  (∀ rd addr, EncodedAs (.ldr rd addr) 6 rd .r0 addr)

/-- 41 R100: STR writes `x[rs]` to the operand address by MemWrite: at 0xF1 with a channel it is appended to the output
log and no cell changes; everywhere else it is stored there and no other cell changes. No register, no flag. The rd
field is ignored. Opcode 0x7, canonical rd 0. -/
def Obligations.StrStoresByte : Prop :=
  (∀ rs addr s, ∃ t, exec (.str rs addr) s = .next t ∧
    (s.ioAttached = true ∧ addr = 0xF1#8 → t.outLog = s.outLog ++ [s.reg rs] ∧ SameCells s t) ∧
    (¬(s.ioAttached = true ∧ addr = 0xF1#8) →
      t.outLog = s.outLog ∧ t.cell addr = s.reg rs ∧ SameCellsBut addr s t) ∧
    SameRegs s t ∧ SameFlags s t ∧ t.pc = s.pc ∧ t.halted = s.halted ∧ t.inQ = s.inQ ∧
    t.ioAttached = s.ioAttached) ∧
  (∀ byte1 byte2 rd rs, HasFields byte1 7 rd rs → decode byte1 byte2 = .str rs byte2) ∧
  (∀ rs addr, EncodedAs (.str rs addr) 7 .r0 rs addr)

/-- 41 R101: a load after a store to the same address gives the stored byte, but at 0xF0 with a channel an input byte
or 0x00, and at 0xF1 with a channel the cell's old byte (decision D4, log 4). -/
def Obligations.LoadAfterStore : Prop :=
  ∀ (rd rs : Reg) (addr : Byte) (s : State), ∃ t u,
    exec (.str rs addr) s = .next t ∧ exec (.ldr rd addr) t = .next u ∧
    u.reg rd =
      if s.ioAttached = true ∧ addr = 0xF0#8 then s.inQ.headD 0x00#8
      else if s.ioAttached = true ∧ addr = 0xF1#8 then s.cell addr
      else s.reg rs

/-- 20_memory R57, 41 R102: a byte stored by one step is what the next read or fetch of that address gives, and a store
over the STR's own bytes still completes. -/
def Obligations.StoreIsSeenByNextFetch : Prop :=
  ∀ s byte1 byte2 after rs addr, Fetches s byte1 byte2 after → decode byte1 byte2 = .str rs addr →
    writesPort s addr = false →
    ∃ t, step s = .next t ∧ t.cell addr = s.reg rs ∧
      (readsPort s addr = false → memRead addr t = (s.reg rs, t) ∧
        (fetch { t with pc := addr }).byte1 = s.reg rs ∧
        (addr ≠ 0xF1#8 → (fetch { t with pc := addr - 1#8 }).byte2 = s.reg rs))

/-! ## Control -/

/-- 42 R104: JMP sets pc to the operand, whatever the pre-advance made of it, and changes nothing else; a JMP to its own
address changes no state. Opcode 0x8, canonical rd and rs 0. -/
def Obligations.JmpSetsProgramCounter : Prop :=
  (∀ addr s, exec (.jmp addr) s = .next { s with pc := addr }) ∧
  (∀ s byte1 byte2 after rd rs, Fetches s byte1 byte2 after → HasFields byte1 8 rd rs →
    step s = .next { s with pc := byte2, inQ := after.inQ } ∧
    (FetchAvoidsPort s → byte2 = s.pc → step s = .next s)) ∧
  (∀ byte1 byte2 rd rs, HasFields byte1 8 rd rs → decode byte1 byte2 = .jmp byte2) ∧
  (∀ addr, EncodedAs (.jmp addr) 8 .r0 .r0 addr)

/-- 42 R104, vector B7-2: a JMP to its own address is an endless loop that changes no state. -/
def Obligations.JmpToItselfLoopsForever : Prop :=
  ∀ s byte1 rd rs, Fetches s byte1 s.pc s → HasFields byte1 8 rd rs →
    ∀ n, stepN n s = .next s

/-- 42 R105: WAIT with an empty queue, as the step's own fetch left it, leaves pc at the WAIT and changes nothing;
with a byte queued it is a NOP; it never pops the queue. Opcode 0xE, canonical E0 00. The machine has its channel;
without one, `WaitWithoutChannelNeverPasses`. -/
def Obligations.WaitRewindsOnEmptyQueue : Prop :=
  (∀ s : State, s.ioAttached = true →
    (s.inQ = [] → exec .wait s = .next { s with pc := s.pc - 2#8 }) ∧
    (s.inQ ≠ [] → exec .wait s = .next s)) ∧
  (∀ s byte1 byte2 after rd rs, s.ioAttached = true → Fetches s byte1 byte2 after → HasFields byte1 14 rd rs →
    (after.inQ = [] → step s = .next { s with inQ := [] }) ∧
    (after.inQ ≠ [] → step s = .next { s with pc := s.pc + 2#8, inQ := after.inQ }) ∧
    (FetchAvoidsPort s → after.inQ = s.inQ ∧ (s.inQ = [] → ∀ n, stepN n s = .next s))) ∧
  (∀ byte1 byte2 rd rs, HasFields byte1 14 rd rs → decode byte1 byte2 = .wait) ∧
  EncodedAs .wait 14 .r0 .r0 0x00#8

/-- 42 R110 (c), 20_memory R43: without a channel WAIT rewinds every time and never falls through. The spec's own
decision D5 (log 5). -/
def Obligations.WaitWithoutChannelNeverPasses : Prop :=
  (∀ s : State, s.ioAttached = false → exec .wait s = .next { s with pc := s.pc - 2#8 }) ∧
  (∀ s byte1 byte2 after rd rs, s.ioAttached = false → Fetches s byte1 byte2 after → HasFields byte1 14 rd rs →
    ∀ n, stepN n s = .next s)

/-- 42 R110 (b), vectors B8-5 and B8-6: a WAIT at 0xEF pops its operand from the queue before it tests it (decision
D22, log 9). -/
def Obligations.WaitAtInputPortEatsItsInput : Prop :=
  ∀ (s : State) (rd rs : Reg), s.ioAttached = true → s.halted = false → s.pc = 0xEF#8 →
    HasFields (s.cell 0xEF#8) 14 rd rs →
    (∀ b, s.inQ = [b] → step s = .next { s with inQ := [] }) ∧
    (∀ b b' q, s.inQ = b :: b' :: q → step s = .next { s with pc := 0xF1#8, inQ := b' :: q })

/-- 70 R143, 42 R105: a WAIT with nothing queued spins for as many steps as you like and changes nothing, and the first
step after the host feeds passes it with every fed byte still queued. That the host may feed between any two steps is
decision D9 (log 10). -/
def Obligations.WaitSpinsUntilHostFeeds : Prop :=
  ∀ (s : State) (rd rs : Reg), s.ioAttached = true → s.halted = false → FetchAvoidsPort s →
    HasFields (s.cell s.pc) 14 rd rs → s.inQ = [] →
    (∀ n, stepN n s = .next s) ∧
    (∀ b bs, step (feedInput (b :: bs) s) = .next { s with pc := s.pc + 2#8, inQ := b :: bs })

/-- 42 R106: HLT sets halted and nothing else, pc rests two past it, and further steps do nothing (R29,
decision D3, log 3). Opcode 0xF, canonical F0 00. -/
def Obligations.HltHaltsTwoPastItself : Prop :=
  (∀ s, exec .hlt s = .next { s with halted := true }) ∧
  (∀ s byte1 byte2 after rd rs, Fetches s byte1 byte2 after → HasFields byte1 15 rd rs →
    ∃ t, t = { s with halted := true, pc := s.pc + 2#8, inQ := after.inQ } ∧
      step s = .next t ∧ RunReturns s t ∧ (∀ n, stepN n t = .next t) ∧
      (FetchAvoidsPort s → after.inQ = s.inQ)) ∧
  (∀ byte1 byte2 rd rs, HasFields byte1 15 rd rs → decode byte1 byte2 = .hlt) ∧
  EncodedAs .hlt 15 .r0 .r0 0x00#8

/-- 42 R107: the six unassigned opcodes are no-ops: the step is that of a NOP. -/
def Obligations.UnassignedOpcodesOnlyAdvance : Prop :=
  (∀ s, exec .unassigned2 s = .next s ∧ exec .unassigned9 s = .next s ∧ exec .unassignedA s = .next s ∧
    exec .unassignedB s = .next s ∧ exec .unassignedC s = .next s ∧ exec .unassignedD s = .next s) ∧
  (∀ s byte1 byte2 after op rd rs, Fetches s byte1 byte2 after → HasFields byte1 op rd rs →
    op ∈ [2, 9, 10, 11, 12, 13] →
    step s = .next { s with pc := s.pc + 2#8, inQ := after.inQ } ∧
    (FetchAvoidsPort s → after.inQ = s.inQ)) ∧
  (∀ byte1 byte2 op rd rs, HasFields byte1 op rd rs → op ∈ [2, 9, 10, 11, 12, 13] →
    decode byte1 byte2 ∈ [.unassigned2, .unassigned9, .unassignedA, .unassignedB, .unassignedC, .unassignedD])

/-! ## Rules over all instructions -/

/-- 10_state R23, the whole table: which instruction writes which flag, and with what. -/
def Obligations.FlagsWrittenByInstruction : Prop :=
  ∀ (i : Instr) (s : State), ∃ t, exec i s = .next t ∧
    match i with
    | .add rd rs => t.z = decide (t.reg rd = 0x00#8) ∧
        t.c = decide ((s.reg rd).toNat + (s.reg rs).toNat > 255)
    | .sub rd rs => t.z = decide (t.reg rd = 0x00#8) ∧ t.c = decide ((s.reg rd).toNat < (s.reg rs).toNat)
    | .ldi _ imm => t.z = decide (imm = 0x00#8) ∧ t.c = s.c
    | .ldr _ addr => t.z = decide ((memRead addr s).1 = 0x00#8) ∧ t.c = s.c
    | .nop | .mov _ _ | .str _ _ | .jmp _ | .wait | .hlt => SameFlags s t
    | .unassigned2 | .unassigned9 | .unassignedA | .unassignedB | .unassignedC | .unassignedD => SameFlags s t

/-- 10_state R15: only MOV, ADD, SUB, LDI and LDR write a register, and only x[rd]; only STR writes the memory array or
the output log; only JMP and WAIT move pc after the pre-advance. -/
def Obligations.WritersOfEachState : Prop :=
  ∀ (i : Instr) (s : State), ∃ t, exec i s = .next t ∧ t.ioAttached = s.ioAttached ∧
    (match i with
      | .mov rd _ | .add rd _ | .sub rd _ | .ldi rd _ | .ldr rd _ => SameRegsBut rd s t
      | .nop | .str _ _ | .jmp _ | .wait | .hlt => SameRegs s t
      | .unassigned2 | .unassigned9 | .unassignedA | .unassignedB | .unassignedC | .unassignedD => SameRegs s t) ∧
    ((∀ rs addr, i ≠ .str rs addr) → SameCells s t ∧ t.outLog = s.outLog) ∧
    ((∀ addr, i ≠ .jmp addr) → i ≠ .wait → t.pc = s.pc) ∧
    ((∀ rd addr, i ≠ .ldr rd addr) → t.inQ = s.inQ) ∧
    (i ≠ .hlt → t.halted = s.halted)

/-- 10_state R27, R28: halted starts false, a step sets it exactly where it executes HLT, and no step and no host move
but the total reset clears it. -/
def Obligations.HaltedIsSetOnlyByHltAndClearedOnlyByReset : Prop :=
  State.reset.halted = false ∧
  (∀ s byte1 byte2 after, Fetches s byte1 byte2 after →
    ∃ t, step s = .next t ∧ (t.halted = true ↔ decode byte1 byte2 = .hlt)) ∧
  (∀ (m : Move) (s : State), s.halted = true → ∃ t, applyMove m s = .next t ∧
    (m ≠ .reset → t.halted = true) ∧ (m = .reset → t.halted = false))

/-- 10_state R29, 60 R125: the halted machine changes nothing however often it is stepped or run, and input does not
wake it. The spec's own decision D3 (log 3); feeding without a channel is log 18. -/
def Obligations.HaltedMachineIsInert : Prop :=
  ∀ (s : State) (bytes : List Byte), s.halted = true →
    (∀ n, stepN n s = .next s) ∧ (∀ n, runFor n s = .next s) ∧
    (∀ n, stepN n (feedInput bytes s) = .next (feedInput bytes s))

/-- 10_state R24: no instruction reads a flag. Two states that differ at most in their flags do so after any number of
steps. -/
def Obligations.FlagsNeverSteerTheMachine : Prop :=
  ∀ (n : Nat) (s t : State), EqualButFlags s t →
    ∃ s' t', stepN n s = .next s' ∧ stepN n t = .next t' ∧
      EqualButFlags s' t'

/-- 10_state R32: the CPU only appends to the output log and cannot observe it: whatever the log holds, the same bytes
are appended and everything else is the same. -/
def Obligations.OutputLogIsAppendOnlyAndUnobserved : Prop :=
  ∀ (n : Nat) (s : State), ∃ (t : State) (emitted : List Byte), ∀ log : List Byte,
    stepN n { s with outLog := log } = .next { t with outLog := log ++ emitted }

/-- 20_memory R45, R61: a step takes exactly one byte of input for each of its reads at a redirected 0xF0: the two fetch
reads and LDR's data read; nothing else takes input. -/
def Obligations.InputIsConsumedOneBytePerPortRead : Prop :=
  ∀ s byte1 byte2 after, Fetches s byte1 byte2 after →
    ∃ t, step s = .next t ∧
      t.inQ = s.inQ.drop
        ((if readsPort s s.pc = true ∨ readsPort s (s.pc + 1#8) = true then 1 else 0) +
         (match decode byte1 byte2 with
          | .ldr _ addr => if readsPort s addr = true then 1 else 0
          | _ => 0))

/-- 10_state R34: with a channel, what the cell under the input port holds never shows in anything else: two states that
differ at most in that cell do so after any number of steps. Rests on decision D4 (log 4). -/
def Obligations.InputPortCellIsInert : Prop :=
  ∀ (n : Nat) (s t : State), s.ioAttached = true → EqualButCell 0xF0#8 s t →
    ∃ s' t', stepN n s = .next s' ∧ stepN n t = .next t' ∧
      EqualButCell 0xF0#8 s' t'

/-- 10_state R34, 70 R133: with a channel, no step and no load or feed of the host changes the cell under the output
port. Rests on decision D4 (log 4). -/
def Obligations.OutputPortCellIsNeverWritten : Prop :=
  ∀ (ms : List Move) (s : State), s.ioAttached = true → .reset ∉ ms →
    ∃ t, applyMoves ms s = .next t ∧ t.cell 0xF1#8 = s.cell 0xF1#8

/-- 10_state R36: no step and no host move changes the build. Rests on decision D16 (log 1); the moves are
the model's (log 10), feeding without a channel among them (log 18). -/
def Obligations.BuildNeverChanges : Prop :=
  ∀ (ms : List Move) (s : State), ∃ t, applyMoves ms s = .next t ∧ t.ioAttached = s.ioAttached

/-- Every step from a state that meets the model's invariant leads to one that meets it. Its canonical list form of
memory, with every address below 256, is the model's own (log 2, DESIGN CHOICE), not what 10_state R35 says; its other
part, no output without a channel, follows from 20_memory R42. -/
def Obligations.StepKeepsInvariant : Prop :=
  ∀ s t : State, s.Inv → step s = .next t → t.Inv

/-- Every schedule of steps and host moves (70 R138) keeps the model's invariant. Its canonical list form of memory is
the model's own (log 2, DESIGN CHOICE), not what 10_state R35 says; its other part follows from 20_memory R42. The moves
are the model's form of R138 (log 10), and feeding without a channel is log 18. -/
def Obligations.SchedulesKeepInvariant : Prop :=
  ∀ (ms : List Move) (s : State), s.Inv → ∃ t, applyMoves ms s = .next t ∧ t.Inv

/-! ## Memory and ports -/

/-- 20_memory R38: what a read gives and what it changes, at every address, masked first. -/
def Obligations.MemReadContract : Prop :=
  ∀ (addr : Nat) (s : State),
    (s.ioAttached = true → addr % 256 = 0xF0 →
      (s.inQ = [] → busRead addr s = (0x00#8, s)) ∧
      (∀ b q, s.inQ = b :: q → busRead addr s = (b, { s with inQ := q }))) ∧
    (¬(s.ioAttached = true ∧ addr % 256 = 0xF0) →
      busRead addr s = (s.cell (BitVec.ofNat 8 (addr % 256)), s))

/-- 20_memory R39: what a write changes, at every address and of every value, both masked first: the output log at a
redirected 0xF1, and everywhere else that cell alone. -/
def Obligations.MemWriteContract : Prop :=
  ∀ (addr value : Nat) (s : State),
    (s.ioAttached = true ∧ addr % 256 = 0xF1 →
      busWrite addr value s = { s with outLog := s.outLog ++ [BitVec.ofNat 8 (value % 256)] }) ∧
    (¬(s.ioAttached = true ∧ addr % 256 = 0xF1) →
      (busWrite addr value s).cell (BitVec.ofNat 8 (addr % 256)) = BitVec.ofNat 8 (value % 256) ∧
      SameCellsBut (BitVec.ofNat 8 (addr % 256)) s (busWrite addr value s) ∧
      { s with mem := (busWrite addr value s).mem } = busWrite addr value s)

/-- 20_memory R40: both primitives mask their address to 8 bits, so the fetch at 0xFF takes byte2 at 0x00. -/
def Obligations.AddressesAreMasked : Prop :=
  (∀ (addr k value : Nat) (s : State),
    busRead (addr + 256 * k) s = busRead addr s ∧ busWrite (addr + 256 * k) value s = busWrite addr value s) ∧
  (∀ s : State, s.pc = 0xFF#8 → (fetch s).byte2 = s.cell 0x00#8 ∧
    (memRead (s.pc + 1#8) s).1 = (busRead 0x100 s).1)

/-- 20_memory R42: without a channel there are no ports: every read is the cell, every write a store. -/
def Obligations.WithoutChannelThereAreNoPorts : Prop :=
  ∀ (a v : Byte) (s : State), s.ioAttached = false →
    memRead a s = (s.cell a, s) ∧
    (memWrite a v s).cell a = v ∧ SameCellsBut a s (memWrite a v s) ∧ (memWrite a v s).outLog = s.outLog ∧
    fetch s = ⟨s.cell s.pc, s.cell (s.pc + 1#8), s⟩

/-- 20_memory R52: a fetch at 0xF0 takes byte1 from the queue and byte2 from mem[0xF1]; at 0xEF, byte1 from mem[0xEF]
and byte2 from the queue; 0x00 stands for an empty queue; at every other pc nothing is taken. -/
def Obligations.FetchThroughTheInputPort : Prop :=
  ∀ s : State, s.ioAttached = true →
    (s.pc = 0xF0#8 → fetch s = ⟨s.inQ.headD 0x00#8, s.cell 0xF1#8, { s with inQ := s.inQ.drop 1 }⟩) ∧
    (s.pc = 0xEF#8 → fetch s = ⟨s.cell 0xEF#8, s.inQ.headD 0x00#8, { s with inQ := s.inQ.drop 1 }⟩) ∧
    (s.pc ≠ 0xF0#8 → s.pc ≠ 0xEF#8 → fetch s = ⟨s.cell s.pc, s.cell (s.pc + 1#8), s⟩)

/-- 20_memory R42, R47: the channel shows only in what touches it. A step whose fetch avoids the port and whose
instruction is no WAIT, no LDR from 0xF0 and no STR to 0xF1 does the same in both builds. -/
def Obligations.BuildsAgreeAwayFromThePorts : Prop :=
  ∀ s byte1 byte2 after, Fetches s byte1 byte2 after → FetchAvoidsPort s →
    decode byte1 byte2 ≠ .wait → (∀ rd, decode byte1 byte2 ≠ .ldr rd 0xF0#8) →
    (∀ rs, decode byte1 byte2 ≠ .str rs 0xF1#8) →
    ∃ t, step s = .next t ∧ step { s with ioAttached := false } = .next { t with ioAttached := false }

/-- The model's own form of memory (log 2): two memories in canonical form that hold the same bytes are the same list,
and storing what a cell holds already changes nothing. -/
def Obligations.CanonicalMemoriesAreEqual : Prop :=
  (∀ m m' : Memory, m.wf = true → m'.wf = true → (∀ a, m.cell a = m'.cell a) → m = m') ∧
  (∀ (m : Memory) (a : Nat), m.wf = true → m.store a (m.cell a) = m)

/-! ## The host -/

/-- 70 R132: `load_program` writes byte i at address i by MemWrite, in order, and changes nothing else. -/
def Obligations.LoadProgramWritesInOrder : Prop :=
  (∀ s, loadProgram [] s = s) ∧
  (∀ bytes b s, loadProgram (bytes ++ [b]) s = busWrite bytes.length b.toNat (loadProgram bytes s)) ∧
  (∀ bytes s, SameRegs s (loadProgram bytes s) ∧ SameFlags s (loadProgram bytes s) ∧
    (loadProgram bytes s).pc = s.pc ∧ (loadProgram bytes s).halted = s.halted ∧
    (loadProgram bytes s).inQ = s.inQ ∧
    (∀ a : Byte, bytes.length ≤ a.toNat → (loadProgram bytes s).cell a = s.cell a))

/-- 70 R133: an image of at most 256 bytes lies at addresses 0 on, but with a channel its byte 0xF1 is emitted and not
stored; no length check is decision D15 (log 8). -/
def Obligations.LoadedImageLiesAtZero : Prop :=
  ∀ (bytes : List Byte) (s : State), bytes.length ≤ 256 →
    (∀ (a : Byte) (h : a.toNat < bytes.length), writesPort s a = false →
      (loadProgram bytes s).cell a = bytes[a.toNat]) ∧
    (loadProgram bytes s).outLog =
      s.outLog ++ (if s.ioAttached = true then (bytes.drop 0xF1).take 1 else [])

/-- 70 R136: feeding appends to the tail of the queue and changes no other state; for characters of code 0 to 255 the
bytes are the codes, whatever FEED_WIDE_CHAR is. The spec does not say what feeding does where no channel is attached;
that it appends there too is the model's choice (log 18, DESIGN CHOICE). -/
def Obligations.FeedInputAppends : Prop :=
  (∀ bytes s, feedInput bytes s = { s with inQ := s.inQ ++ bytes }) ∧
  (∀ wide text s, (∀ ch ∈ text, ch.toNat ≤ 255) →
    feedText wide text s = { s with inQ := s.inQ ++ text.map (fun ch => BitVec.ofNat 8 ch.toNat) })

/-- 00_scope R12, 70 R135: `run` returns exactly where some number of steps reaches a halted state, which is then final
and the only state it can return (decisions D3 and D20, log 3). -/
def Obligations.RunEndsExactlyWhenHalted : Prop :=
  (∀ s t, RunReturns s t ↔ ∃ n, stepN n s = .next t ∧ t.halted = true) ∧
  (∀ s t t', RunReturns s t → RunReturns s t' → t = t') ∧
  (∀ s t n, RunReturns s t → stepN n t = .next t) ∧
  (∀ s : State, s.halted = true → ∀ n, runFor n s = .next s)

/-- 70 R137, 20_memory R46: the accessors show every backing cell, those under the ports too, and nothing of the pending
input. The path of the memory accessor is decision D6 (log 6). -/
def Obligations.AccessorsShowBackingCells : Prop :=
  ∀ (s : State) (q : List Byte) (a : Byte),
    (observe s).cells[a.toNat]? = some (s.cell a) ∧ observe { s with inQ := q } = observe s ∧
    (observe s).output = s.outLog

/-- The model's `withFetchWord` (log 19): from every state, the next step runs exactly the placed instruction, with pc
two on and registers, flags, queue and log as they were. -/
def Obligations.PlacedWordRunsNext : Prop :=
  ∀ (s : State) (w : Nat), ∃ u i,
    decodeTableWord 16 w = some i ∧ step (s.withFetchWord 16 w) = exec i u ∧
    u.pc = s.pc + 2#8 ∧ u.regs = s.regs ∧ SameFlags s u ∧ u.halted = false ∧ SameIO s u ∧
    (∀ a, a ≠ s.pc → a ≠ s.pc + 1#8 → u.cell a = s.cell a)

/-! ## The assembler -/

/-- 30_encoding R73, R79, R80: assembling the canonical text of any program gives its encoding, and every program of
instructions with a mnemonic has such a text. -/
def Obligations.AssemblerInvertsListing : Prop :=
  (∀ is : List Instr, (∀ i ∈ is, i.hasMnemonic = true) → ∃ text, listing is = some text) ∧
  (∀ (is : List Instr) (text : Text), listing is = some text → assemble text = .ok (is.flatMap encodeBytes))

/-- 30_encoding R80: each instruction line gives one instruction and two bytes, in source order, every unused
field 0: instruction N of an assembled text lies at bytes 2N and 2N + 1. -/
def Obligations.AssembledLineIsTwoBytes : Prop :=
  ∀ (text : Text) (bytes : List Byte), assemble text = .ok bytes →
    bytes.length = 2 * (instrLines text).length ∧
    ∀ (n : Nat) (h : n < (instrLines text).length), ∃ i,
      lineInstr (instrLines text)[n] = .ok i ∧
      bytes[2 * n]? = some (encode i).1 ∧ bytes[2 * n + 1]? = some (encode i).2 ∧
      (fieldsOf (encode i).1 (encode i).2).canonical = true

/-- 30_encoding R83: one line that fails fails the whole text, and a text all of whose lines assemble does. Which texts
the model refuses beyond R83 is log 12. -/
def Obligations.AssemblyIsAllOrNothing : Prop :=
  ∀ text : Text,
    ((∃ line ∈ instrLines text, ∃ e, lineInstr line = .error e) ↔ ∃ e, assemble text = .error e)
end

