-- ==== Sys2Proof/Laws/State.lean ====
section
/-! SUPPORT. One lemma per field per update, true by unfolding, so that no proof unfolds a record update. -/

namespace Sys2Proof.Machine

@[simp] theorem State.setReg_regs (s : State) (r : Reg) (v : Byte) : (s.setReg r v).regs = s.regs.set r v := rfl
@[simp] theorem State.setReg_pc (s : State) (r : Reg) (v : Byte) : (s.setReg r v).pc = s.pc := rfl
@[simp] theorem State.setReg_z (s : State) (r : Reg) (v : Byte) : (s.setReg r v).z = s.z := rfl
@[simp] theorem State.setReg_c (s : State) (r : Reg) (v : Byte) : (s.setReg r v).c = s.c := rfl
@[simp] theorem State.setReg_halted (s : State) (r : Reg) (v : Byte) : (s.setReg r v).halted = s.halted := rfl
@[simp] theorem State.setReg_mem (s : State) (r : Reg) (v : Byte) : (s.setReg r v).mem = s.mem := rfl
@[simp] theorem State.setReg_inQ (s : State) (r : Reg) (v : Byte) : (s.setReg r v).inQ = s.inQ := rfl
@[simp] theorem State.setReg_outLog (s : State) (r : Reg) (v : Byte) : (s.setReg r v).outLog = s.outLog := rfl
@[simp] theorem State.setReg_ioAttached (s : State) (r : Reg) (v : Byte) : (s.setReg r v).ioAttached = s.ioAttached := rfl

@[simp] theorem State.setZ_regs (s : State) (b : Bool) : (s.setZ b).regs = s.regs := rfl
@[simp] theorem State.setZ_pc (s : State) (b : Bool) : (s.setZ b).pc = s.pc := rfl
@[simp] theorem State.setZ_z (s : State) (b : Bool) : (s.setZ b).z = b := rfl
@[simp] theorem State.setZ_c (s : State) (b : Bool) : (s.setZ b).c = s.c := rfl
@[simp] theorem State.setZ_halted (s : State) (b : Bool) : (s.setZ b).halted = s.halted := rfl
@[simp] theorem State.setZ_mem (s : State) (b : Bool) : (s.setZ b).mem = s.mem := rfl
@[simp] theorem State.setZ_inQ (s : State) (b : Bool) : (s.setZ b).inQ = s.inQ := rfl
@[simp] theorem State.setZ_outLog (s : State) (b : Bool) : (s.setZ b).outLog = s.outLog := rfl
@[simp] theorem State.setZ_ioAttached (s : State) (b : Bool) : (s.setZ b).ioAttached = s.ioAttached := rfl

@[simp] theorem State.setC_regs (s : State) (b : Bool) : (s.setC b).regs = s.regs := rfl
@[simp] theorem State.setC_pc (s : State) (b : Bool) : (s.setC b).pc = s.pc := rfl
@[simp] theorem State.setC_z (s : State) (b : Bool) : (s.setC b).z = s.z := rfl
@[simp] theorem State.setC_c (s : State) (b : Bool) : (s.setC b).c = b := rfl
@[simp] theorem State.setC_halted (s : State) (b : Bool) : (s.setC b).halted = s.halted := rfl
@[simp] theorem State.setC_mem (s : State) (b : Bool) : (s.setC b).mem = s.mem := rfl
@[simp] theorem State.setC_inQ (s : State) (b : Bool) : (s.setC b).inQ = s.inQ := rfl
@[simp] theorem State.setC_outLog (s : State) (b : Bool) : (s.setC b).outLog = s.outLog := rfl
@[simp] theorem State.setC_ioAttached (s : State) (b : Bool) : (s.setC b).ioAttached = s.ioAttached := rfl

@[simp] theorem State.halt_regs (s : State) : s.halt.regs = s.regs := rfl
@[simp] theorem State.halt_pc (s : State) : s.halt.pc = s.pc := rfl
@[simp] theorem State.halt_z (s : State) : s.halt.z = s.z := rfl
@[simp] theorem State.halt_c (s : State) : s.halt.c = s.c := rfl
@[simp] theorem State.halt_halted (s : State) : s.halt.halted = true := rfl
@[simp] theorem State.halt_mem (s : State) : s.halt.mem = s.mem := rfl
@[simp] theorem State.halt_inQ (s : State) : s.halt.inQ = s.inQ := rfl
@[simp] theorem State.halt_outLog (s : State) : s.halt.outLog = s.outLog := rfl
@[simp] theorem State.halt_ioAttached (s : State) : s.halt.ioAttached = s.ioAttached := rfl

@[simp] theorem State.setPc_regs (s : State) (a : Byte) : (s.setPc a).regs = s.regs := rfl
@[simp] theorem State.setPc_pc (s : State) (a : Byte) : (s.setPc a).pc = a := rfl
@[simp] theorem State.setPc_z (s : State) (a : Byte) : (s.setPc a).z = s.z := rfl
@[simp] theorem State.setPc_c (s : State) (a : Byte) : (s.setPc a).c = s.c := rfl
@[simp] theorem State.setPc_halted (s : State) (a : Byte) : (s.setPc a).halted = s.halted := rfl
@[simp] theorem State.setPc_mem (s : State) (a : Byte) : (s.setPc a).mem = s.mem := rfl
@[simp] theorem State.setPc_inQ (s : State) (a : Byte) : (s.setPc a).inQ = s.inQ := rfl
@[simp] theorem State.setPc_outLog (s : State) (a : Byte) : (s.setPc a).outLog = s.outLog := rfl
@[simp] theorem State.setPc_ioAttached (s : State) (a : Byte) : (s.setPc a).ioAttached = s.ioAttached := rfl

@[simp] theorem State.advance_regs (s : State) : s.advance.regs = s.regs := rfl
@[simp] theorem State.advance_pc (s : State) : s.advance.pc = s.pc + 2#8 := rfl
@[simp] theorem State.advance_z (s : State) : s.advance.z = s.z := rfl
@[simp] theorem State.advance_c (s : State) : s.advance.c = s.c := rfl
@[simp] theorem State.advance_halted (s : State) : s.advance.halted = s.halted := rfl
@[simp] theorem State.advance_mem (s : State) : s.advance.mem = s.mem := rfl
@[simp] theorem State.advance_inQ (s : State) : s.advance.inQ = s.inQ := rfl
@[simp] theorem State.advance_outLog (s : State) : s.advance.outLog = s.outLog := rfl
@[simp] theorem State.advance_ioAttached (s : State) : s.advance.ioAttached = s.ioAttached := rfl

@[simp] theorem State.rewind_regs (s : State) : s.rewind.regs = s.regs := rfl
@[simp] theorem State.rewind_pc (s : State) : s.rewind.pc = s.pc - 2#8 := rfl
@[simp] theorem State.rewind_z (s : State) : s.rewind.z = s.z := rfl
@[simp] theorem State.rewind_c (s : State) : s.rewind.c = s.c := rfl
@[simp] theorem State.rewind_halted (s : State) : s.rewind.halted = s.halted := rfl
@[simp] theorem State.rewind_mem (s : State) : s.rewind.mem = s.mem := rfl
@[simp] theorem State.rewind_inQ (s : State) : s.rewind.inQ = s.inQ := rfl
@[simp] theorem State.rewind_outLog (s : State) : s.rewind.outLog = s.outLog := rfl
@[simp] theorem State.rewind_ioAttached (s : State) : s.rewind.ioAttached = s.ioAttached := rfl

@[simp] theorem State.setCell_regs (s : State) (a v : Byte) : (s.setCell a v).regs = s.regs := rfl
@[simp] theorem State.setCell_pc (s : State) (a v : Byte) : (s.setCell a v).pc = s.pc := rfl
@[simp] theorem State.setCell_z (s : State) (a v : Byte) : (s.setCell a v).z = s.z := rfl
@[simp] theorem State.setCell_c (s : State) (a v : Byte) : (s.setCell a v).c = s.c := rfl
@[simp] theorem State.setCell_halted (s : State) (a v : Byte) : (s.setCell a v).halted = s.halted := rfl
@[simp] theorem State.setCell_mem (s : State) (a v : Byte) : (s.setCell a v).mem = s.mem.store a.toNat v := rfl
@[simp] theorem State.setCell_inQ (s : State) (a v : Byte) : (s.setCell a v).inQ = s.inQ := rfl
@[simp] theorem State.setCell_outLog (s : State) (a v : Byte) : (s.setCell a v).outLog = s.outLog := rfl
@[simp] theorem State.setCell_ioAttached (s : State) (a v : Byte) : (s.setCell a v).ioAttached = s.ioAttached := rfl

@[simp] theorem State.feed_regs (s : State) (bs : List Byte) : (s.feed bs).regs = s.regs := rfl
@[simp] theorem State.feed_pc (s : State) (bs : List Byte) : (s.feed bs).pc = s.pc := rfl
@[simp] theorem State.feed_z (s : State) (bs : List Byte) : (s.feed bs).z = s.z := rfl
@[simp] theorem State.feed_c (s : State) (bs : List Byte) : (s.feed bs).c = s.c := rfl
@[simp] theorem State.feed_halted (s : State) (bs : List Byte) : (s.feed bs).halted = s.halted := rfl
@[simp] theorem State.feed_mem (s : State) (bs : List Byte) : (s.feed bs).mem = s.mem := rfl
@[simp] theorem State.feed_inQ (s : State) (bs : List Byte) : (s.feed bs).inQ = s.inQ ++ bs := rfl
@[simp] theorem State.feed_outLog (s : State) (bs : List Byte) : (s.feed bs).outLog = s.outLog := rfl
@[simp] theorem State.feed_ioAttached (s : State) (bs : List Byte) : (s.feed bs).ioAttached = s.ioAttached := rfl

@[simp] theorem State.emit_regs (s : State) (v : Byte) : (s.emit v).regs = s.regs := rfl
@[simp] theorem State.emit_pc (s : State) (v : Byte) : (s.emit v).pc = s.pc := rfl
@[simp] theorem State.emit_z (s : State) (v : Byte) : (s.emit v).z = s.z := rfl
@[simp] theorem State.emit_c (s : State) (v : Byte) : (s.emit v).c = s.c := rfl
@[simp] theorem State.emit_halted (s : State) (v : Byte) : (s.emit v).halted = s.halted := rfl
@[simp] theorem State.emit_mem (s : State) (v : Byte) : (s.emit v).mem = s.mem := rfl
@[simp] theorem State.emit_inQ (s : State) (v : Byte) : (s.emit v).inQ = s.inQ := rfl
@[simp] theorem State.emit_outLog (s : State) (v : Byte) : (s.emit v).outLog = s.outLog ++ [v] := rfl
@[simp] theorem State.emit_ioAttached (s : State) (v : Byte) : (s.emit v).ioAttached = s.ioAttached := rfl

@[simp] theorem State.setRegZ_regs (s : State) (r : Reg) (v : Byte) : (s.setRegZ r v).regs = s.regs.set r v := rfl
@[simp] theorem State.setRegZ_pc (s : State) (r : Reg) (v : Byte) : (s.setRegZ r v).pc = s.pc := rfl
@[simp] theorem State.setRegZ_z (s : State) (r : Reg) (v : Byte) : (s.setRegZ r v).z = zeroFlag v := rfl
@[simp] theorem State.setRegZ_c (s : State) (r : Reg) (v : Byte) : (s.setRegZ r v).c = s.c := rfl
@[simp] theorem State.setRegZ_halted (s : State) (r : Reg) (v : Byte) : (s.setRegZ r v).halted = s.halted := rfl
@[simp] theorem State.setRegZ_mem (s : State) (r : Reg) (v : Byte) : (s.setRegZ r v).mem = s.mem := rfl
@[simp] theorem State.setRegZ_inQ (s : State) (r : Reg) (v : Byte) : (s.setRegZ r v).inQ = s.inQ := rfl
@[simp] theorem State.setRegZ_outLog (s : State) (r : Reg) (v : Byte) : (s.setRegZ r v).outLog = s.outLog := rfl
@[simp] theorem State.setRegZ_ioAttached (s : State) (r : Reg) (v : Byte) : (s.setRegZ r v).ioAttached = s.ioAttached := rfl

/-- Reading a register after writing one. -/
theorem State.reg_setReg (s : State) (r q : Reg) (v : Byte) :
    (s.setReg r v).reg q = if q = r then v else s.reg q := by
  cases r <;> cases q <;> rfl

@[simp] theorem State.reg_setReg_self (s : State) (r : Reg) (v : Byte) : (s.setReg r v).reg r = v := by
  simp [State.reg_setReg]

theorem State.reg_setReg_other (s : State) (r q : Reg) (v : Byte) (h : q ≠ r) :
    (s.setReg r v).reg q = s.reg q := by
  simp [State.reg_setReg, h]

@[simp] theorem State.setZ_reg (s : State) (b : Bool) (r : Reg) : (s.setZ b).reg r = s.reg r := by cases r <;> rfl
@[simp] theorem State.setC_reg (s : State) (b : Bool) (r : Reg) : (s.setC b).reg r = s.reg r := by cases r <;> rfl
@[simp] theorem State.halt_reg (s : State) (r : Reg) : s.halt.reg r = s.reg r := by cases r <;> rfl
@[simp] theorem State.setPc_reg (s : State) (a : Byte) (r : Reg) : (s.setPc a).reg r = s.reg r := by cases r <;> rfl
@[simp] theorem State.advance_reg (s : State) (r : Reg) : s.advance.reg r = s.reg r := by cases r <;> rfl
@[simp] theorem State.rewind_reg (s : State) (r : Reg) : s.rewind.reg r = s.reg r := by cases r <;> rfl
@[simp] theorem State.setCell_reg (s : State) (a v : Byte) (r : Reg) : (s.setCell a v).reg r = s.reg r := by cases r <;> rfl
@[simp] theorem State.feed_reg (s : State) (bs : List Byte) (r : Reg) : (s.feed bs).reg r = s.reg r := by cases r <;> rfl
@[simp] theorem State.emit_reg (s : State) (v : Byte) (r : Reg) : (s.emit v).reg r = s.reg r := by cases r <;> rfl

@[simp] theorem State.reg_setRegZ_self (s : State) (r : Reg) (v : Byte) : (s.setRegZ r v).reg r = v := by
  cases r <;> rfl

theorem State.reg_setRegZ_other (s : State) (r q : Reg) (v : Byte) (h : q ≠ r) :
    (s.setRegZ r v).reg q = s.reg q := by
  rw [State.setRegZ, State.setZ_reg, State.reg_setReg_other s r q v h]

@[simp] theorem State.setReg_cell (s : State) (r : Reg) (v : Byte) (a : Byte) : (s.setReg r v).cell a = s.cell a := rfl
@[simp] theorem State.setZ_cell (s : State) (b : Bool) (a : Byte) : (s.setZ b).cell a = s.cell a := rfl
@[simp] theorem State.setC_cell (s : State) (b : Bool) (a : Byte) : (s.setC b).cell a = s.cell a := rfl
@[simp] theorem State.halt_cell (s : State) (a : Byte) : s.halt.cell a = s.cell a := rfl
@[simp] theorem State.setPc_cell (s : State) (a b : Byte) : (s.setPc a).cell b = s.cell b := rfl
@[simp] theorem State.advance_cell (s : State) (a : Byte) : s.advance.cell a = s.cell a := rfl
@[simp] theorem State.rewind_cell (s : State) (a : Byte) : s.rewind.cell a = s.cell a := rfl
@[simp] theorem State.feed_cell (s : State) (bs : List Byte) (a : Byte) : (s.feed bs).cell a = s.cell a := rfl
@[simp] theorem State.emit_cell (s : State) (v : Byte) (a : Byte) : (s.emit v).cell a = s.cell a := rfl
@[simp] theorem State.setRegZ_cell (s : State) (r : Reg) (v : Byte) (a : Byte) : (s.setRegZ r v).cell a = s.cell a := rfl

end Sys2Proof.Machine
end

