-- ==== Sys2Proof/Laws/Memory.lean ====
section
/-! SUPPORT. What the memory array's operations do (20_memory R38, R39): a read after a store gives the byte stored at
the same address and the old byte everywhere else, and every operation keeps the canonical form. -/

namespace Sys2Proof.Machine

theorem Memory.cell_erase (m : Memory) (a b : Nat) :
    (m.erase a).cell b = if b = a then Config.memReset else m.cell b := by
  induction m with
  | nil => simp [Memory.erase, Memory.cell]
  | cons e m ih =>
    obtain ⟨k, v⟩ := e
    simp only [Memory.erase, List.filter_cons] at ih ⊢
    by_cases hk : k = a
    · by_cases hb : b = a
      · simpa [hk, hb] using ih
      · have hab : a ≠ b := fun h => hb h.symm
        simpa [hk, hb, Memory.cell, hab] using ih
    · by_cases hb : k = b
      · have hba : b ≠ a := fun h => hk (hb.trans h)
        simp [hb, hba, Memory.cell]
      · simpa [hk, hb, Memory.cell] using ih

theorem Memory.cell_place (m : Memory) (a b : Nat) (v : Byte) (h : ∀ e ∈ m, e.1 ≠ a) :
    (m.place a v).cell b = if b = a then v else m.cell b := by
  induction m with
  | nil => simp [Memory.place, Memory.cell, eq_comm (a := a) (b := b)]
  | cons e m ih =>
    obtain ⟨k, w⟩ := e
    have hk : k ≠ a := h (k, w) (by simp)
    have ih := ih (fun e he => h e (by simp [he]))
    simp only [Memory.place]
    split
    · simp [Memory.cell, eq_comm (a := a) (b := b)]
    · by_cases hb : k = b
      · have : b ≠ a := fun hba => hk (hb.trans hba)
        simp [Memory.cell, hb, this]
      · simp [Memory.cell, hb, ih]

theorem Memory.erase_absent (m : Memory) (a : Nat) : ∀ e ∈ m.erase a, e.1 ≠ a := by
  intro e he
  simpa using (List.mem_filter.mp he).2

/-- Reading a cell after a store. -/
theorem Memory.cell_store (m : Memory) (a b : Nat) (v : Byte) :
    (m.store a v).cell b = if b = a then v else m.cell b := by
  unfold Memory.store
  split
  · next h => rw [Memory.cell_erase, h]
  · rw [Memory.cell_place _ _ _ _ (Memory.erase_absent m a), Memory.cell_erase]
    split <;> simp_all

theorem Memory.wfFrom_mono (m : Memory) {lo hi : Nat} (h : m.wfFrom hi = true) (hl : lo ≤ hi) :
    m.wfFrom lo = true := by
  cases m with
  | nil => rfl
  | cons e m =>
    simp only [Memory.wfFrom, Bool.and_eq_true, decide_eq_true_eq] at h ⊢
    exact ⟨⟨⟨by omega, h.1.1.2⟩, h.1.2⟩, h.2⟩

theorem Memory.wfFrom_erase (m : Memory) (lo a : Nat) (h : m.wfFrom lo = true) :
    (m.erase a).wfFrom lo = true := by
  induction m generalizing lo with
  | nil => rfl
  | cons e m ih =>
    obtain ⟨k, v⟩ := e
    simp only [Memory.wfFrom, Bool.and_eq_true, decide_eq_true_eq] at h
    have hrest := ih (k + 1) h.2
    simp only [Memory.erase, List.filter_cons] at hrest ⊢
    by_cases hk : k = a
    · simp only [ne_eq, hk, not_true_eq_false, decide_false, Bool.false_eq_true, if_false]
      exact Memory.wfFrom_mono _ hrest (by omega)
    · simp only [ne_eq, hk, not_false_eq_true, decide_true, if_true, Memory.wfFrom, Bool.and_eq_true,
        decide_eq_true_eq]
      exact ⟨h.1, hrest⟩

theorem Memory.wfFrom_place (m : Memory) (lo a : Nat) (v : Byte) (h : m.wfFrom lo = true) (hlo : lo ≤ a)
    (ha : a < Config.memSize) (hv : v ≠ Config.memReset) (hne : ∀ e ∈ m, e.1 ≠ a) :
    (m.place a v).wfFrom lo = true := by
  induction m generalizing lo with
  | nil => simp [Memory.place, Memory.wfFrom, hlo, ha, hv]
  | cons e m ih =>
    obtain ⟨k, w⟩ := e
    have hk : k ≠ a := hne (k, w) (by simp)
    simp only [Memory.wfFrom, Bool.and_eq_true, decide_eq_true_eq] at h
    simp only [Memory.place]
    split
    · next hlt =>
      simp only [Memory.wfFrom, Bool.and_eq_true, decide_eq_true_eq, bne_iff_ne]
      exact ⟨⟨⟨hlo, ha⟩, hv⟩, ⟨⟨Nat.succ_le_of_lt hlt, h.1.1.2⟩, by simpa using h.1.2⟩, h.2⟩
    · next hge =>
      simp only [Memory.wfFrom, Bool.and_eq_true, decide_eq_true_eq]
      exact ⟨h.1, ih (k + 1) h.2 (by omega) (fun e he => hne e (by simp [he]))⟩

/-- A store keeps the canonical form. -/
theorem Memory.wf_store (m : Memory) (a : Nat) (v : Byte) (h : m.wf = true) (ha : a < Config.memSize) :
    (m.store a v).wf = true := by
  unfold Memory.store
  split
  · exact Memory.wfFrom_erase m 0 a h
  · next hv =>
    exact Memory.wfFrom_place _ 0 a v (Memory.wfFrom_erase m 0 a h) (Nat.zero_le a) ha hv
      (Memory.erase_absent m a)

/-- The memory after reset has the canonical form. -/
theorem State.resetOf_wf (io : Bool) : (State.resetOf io).mem.wf = true := rfl

/-- Reading a backing cell after one is written. -/
theorem State.cell_setCell (s : State) (a b v : Byte) :
    (s.setCell a v).cell b = if b = a then v else s.cell b := by
  simp only [State.cell, State.setCell_mem, Memory.cell_store, BitVec.toNat_inj]

/-- Writing a backing cell keeps the canonical form. -/
theorem State.setCell_wf (s : State) (a v : Byte) (h : s.mem.wf = true) : (s.setCell a v).mem.wf = true :=
  Memory.wf_store s.mem a.toNat v h a.isLt

end Sys2Proof.Machine
end

