-- ==== Sys2Proof/Laws/Bus.lean ====
section
/-! SUPPORT. Everything the bus primitives and the fetch can do, said once (20_memory R38, R39, R43, R52). -/

namespace Sys2Proof.Machine

theorem readsPort_iff (s : State) (a : Byte) :
    readsPort s a = true ↔ s.ioAttached = true ∧ a = Config.inPort := by
  simp [readsPort]

theorem writesPort_iff (s : State) (a : Byte) :
    writesPort s a = true ↔ s.ioAttached = true ∧ a = Config.outPort := by
  simp [writesPort]

/-- A read that is not redirected gives the backing cell and changes nothing. -/
theorem memRead_plain (a : Byte) (s : State) (h : readsPort s a = false) : memRead a s = (s.cell a, s) := by
  simp [memRead, h]

/-- A redirected read with nothing queued gives 0x00 and changes nothing. -/
theorem memRead_empty (a : Byte) (s : State) (h : readsPort s a = true) (hq : s.inQ = []) :
    memRead a s = (Config.emptyInput, s) := by
  simp [memRead, h, popInput, hq]

/-- A redirected read with bytes queued pops the oldest. -/
theorem memRead_pop (a : Byte) (s : State) (b : Byte) (q : List Byte) (h : readsPort s a = true)
    (hq : s.inQ = b :: q) : memRead a s = (b, { s with inQ := q }) := by
  simp [memRead, h, popInput, hq]

/-- Everything a read can do: one of the three cases above. -/
theorem memRead_cases (a : Byte) (s : State) :
    (readsPort s a = false ∧ memRead a s = (s.cell a, s)) ∨
    (readsPort s a = true ∧ s.inQ = [] ∧ memRead a s = (Config.emptyInput, s)) ∨
    (∃ b q, readsPort s a = true ∧ s.inQ = b :: q ∧ memRead a s = (b, { s with inQ := q })) := by
  cases h : readsPort s a with
  | false => exact .inl ⟨rfl, memRead_plain a s h⟩
  | true =>
    cases hq : s.inQ with
    | nil => exact .inr (.inl ⟨rfl, rfl, memRead_empty a s h hq⟩)
    | cons b q => exact .inr (.inr ⟨b, q, rfl, rfl, memRead_pop a s b q h hq⟩)

/-- A read changes the input queue alone, and at most takes its head. -/
theorem memRead_state (a : Byte) (s : State) :
    ∃ k, k ≤ 1 ∧ (memRead a s).2 = { s with inQ := s.inQ.drop k } := by
  rcases memRead_cases a s with ⟨_, h⟩ | ⟨_, _, h⟩ | ⟨b, q, _, hq, h⟩
  · exact ⟨0, by omega, by simp [h]⟩
  · exact ⟨0, by omega, by simp [h]⟩
  · exact ⟨1, by omega, by simp [h, hq]⟩

/-- A write that is not redirected stores into the backing cell. -/
theorem memWrite_plain (a v : Byte) (s : State) (h : writesPort s a = false) :
    memWrite a v s = s.setCell a v := by
  simp [memWrite, h]

/-- A redirected write appends to the output log. -/
theorem memWrite_emit (a v : Byte) (s : State) (h : writesPort s a = true) : memWrite a v s = s.emit v := by
  simp [memWrite, h]

/-- Everything a write can do: one of the two cases above. -/
theorem memWrite_cases (a v : Byte) (s : State) :
    (writesPort s a = false ∧ memWrite a v s = s.setCell a v) ∨
    (writesPort s a = true ∧ memWrite a v s = s.emit v) := by
  cases h : writesPort s a with
  | false => exact .inl ⟨rfl, memWrite_plain a v s h⟩
  | true => exact .inr ⟨rfl, memWrite_emit a v s h⟩

/-- A write keeps the canonical form of the memory. -/
theorem memWrite_wf (a v : Byte) (s : State) (h : s.mem.wf = true) : (memWrite a v s).mem.wf = true := by
  rcases memWrite_cases a v s with ⟨_, hw⟩ | ⟨_, hw⟩
  · rw [hw]; exact State.setCell_wf s a v h
  · rw [hw]; exact h

/-- The emptiness test: no channel, or nothing queued. -/
theorem inEmpty_iff (s : State) : inEmpty s = true ↔ s.ioAttached = false ∨ s.inQ = [] := by
  simp [inEmpty]

/-- The two fetch reads change the input queue alone, and at most take its head. -/
theorem fetch_after (s : State) : ∃ k, k ≤ 1 ∧ (fetch s).after = { s with inQ := s.inQ.drop k } := by
  rcases memRead_cases s.pc s with ⟨_, h⟩ | ⟨_, _, h⟩ | ⟨b, q, hp, hq, h⟩
  · obtain ⟨k, hk, e⟩ := memRead_state (s.pc + 1#8) s
    exact ⟨k, hk, by simp [fetch, h, e]⟩
  · obtain ⟨k, hk, e⟩ := memRead_state (s.pc + 1#8) s
    exact ⟨k, hk, by simp [fetch, h, e]⟩
  · refine ⟨1, by omega, ?_⟩
    have hpc := ((readsPort_iff s s.pc).mp hp).2
    have hn : readsPort { s with inQ := q } (s.pc + 1#8) = false := by
      simp [readsPort, hpc, Config.inPort]
    simp [fetch, h, memRead_plain _ _ hn, hq]

/-- A fetch that no port redirects reads the two cells at pc and pc + 1 and changes nothing. -/
theorem fetch_plain (s : State) (h1 : readsPort s s.pc = false) (h2 : readsPort s (s.pc + 1#8) = false) :
    fetch s = ⟨s.cell s.pc, s.cell (s.pc + 1#8), s⟩ := by
  simp [fetch, memRead_plain _ _ h1, memRead_plain _ _ h2]

end Sys2Proof.Machine
end

