-- ==== Sys2Proof/Laws/Flags.lean ====
section
/-! SUPPORT. What the arithmetic and the flag computations give, said once (40 R92 to R95), for proofs to cite. -/

namespace Sys2Proof.Machine

theorem sumByte_toNat (a b : Byte) : (sumByte a b).toNat = (a.toNat + b.toNat) % 256 := by
  simp [sumByte, sumExact]

theorem differenceByte_toNat (a b : Byte) :
    ((differenceByte a b).toNat : Int) = ((a.toNat : Int) - (b.toNat : Int)) % 256 := by
  simp only [differenceByte, differenceExact, BitVec.toNat_ofInt]
  omega

theorem addCarry_iff (a b : Byte) : addCarry a b = true ↔ a.toNat + b.toNat > 255 := by
  simp [addCarry, sumExact]

theorem subBorrow_iff (a b : Byte) : subBorrow a b = true ↔ a.toNat < b.toNat := by
  simp [subBorrow, differenceExact]

theorem zeroFlag_iff (v : Byte) : zeroFlag v = true ↔ v = 0x00#8 := by
  simp [zeroFlag]

/-- A sum of two bytes is stored as zero exactly if it is 0 or 256. -/
theorem sumByte_eq_zero (a b : Byte) : sumByte a b = 0x00#8 ↔ a.toNat + b.toNat = 0 ∨ a.toNat + b.toNat = 256 := by
  have ha := a.isLt
  have hb := b.isLt
  rw [← BitVec.toNat_inj, sumByte_toNat]
  simp only [BitVec.toNat_ofNat, Nat.zero_mod]
  omega

/-- A difference of two bytes is stored as zero exactly if they are equal, so never with a borrow. -/
theorem differenceByte_eq_zero (a b : Byte) : differenceByte a b = 0x00#8 ↔ a = b := by
  have ha := a.isLt
  have hb := b.isLt
  have h := differenceByte_toNat a b
  rw [← BitVec.toNat_inj, ← BitVec.toNat_inj (x := a)]
  simp only [BitVec.toNat_ofNat, Nat.zero_mod]
  omega

end Sys2Proof.Machine
end

