-- ==== Sys2Proof/Laws/Meanings.lean ====
section
/-! SUPPORT. The next state of every meaning as one equation, and the step as fetch, advance and dispatch
(10_state R19); proofs cite these in place of unfolding `exec` and `step`. -/

namespace Sys2Proof.Machine

/-- The state an instruction leaves, without its outcome. -/
def effect (i : Instr) (s : State) : State :=
  match exec i s with
  | .next t => t
  | .fault _ => s
  | .refused _ => s

/-- Every meaning answers a next state (60 R112). -/
theorem exec_eq (i : Instr) (s : State) : exec i s = .next (effect i s) := by
  cases i <;> rfl

theorem step_halted (s : State) (h : s.halted = true) : step s = .next s := by
  simp [step, h]

theorem step_running (s : State) (h : s.halted = false) :
    step s = .next (effect (decode (fetch s).byte1 (fetch s).byte2) (fetch s).after.advance) := by
  simp [step, h, exec_eq]

theorem loadFrom_append (i : Nat) (bs cs : List Byte) (s : State) :
    loadFrom i (bs ++ cs) s = loadFrom (i + bs.length) cs (loadFrom i bs s) := by
  induction bs generalizing i s with
  | nil => rfl
  | cons b bs ih =>
    simp only [List.cons_append, loadFrom, ih, List.length_cons]
    congr 1
    omega

end Sys2Proof.Machine
end

