-- ==== Sys2Proof/Laws/PerInstr.lean ====
section
/-! SUPPORT. The family Canonical: the encoding of every instruction is the canonical one (30_encoding R73, R81). -/

namespace Sys2Proof.Laws.Canonical

/-- Every field the instruction does not read is zero in its encoding. -/
def Statement (i : Instr) : Prop := (encodeFields i).canonical = true

theorem nop : Statement .nop := rfl
theorem mov (rd rs : Reg) : Statement (.mov rd rs) := rfl
theorem unassigned2 : Statement .unassigned2 := rfl
theorem add (rd rs : Reg) : Statement (.add rd rs) := rfl
theorem sub (rd rs : Reg) : Statement (.sub rd rs) := rfl
theorem ldi (rd : Reg) (imm : Byte) : Statement (.ldi rd imm) := rfl
theorem ldr (rd : Reg) (addr : Byte) : Statement (.ldr rd addr) := rfl
theorem str (rs : Reg) (addr : Byte) : Statement (.str rs addr) := rfl
theorem jmp (addr : Byte) : Statement (.jmp addr) := rfl
theorem unassigned9 : Statement .unassigned9 := rfl
theorem unassignedA : Statement .unassignedA := rfl
theorem unassignedB : Statement .unassignedB := rfl
theorem unassignedC : Statement .unassignedC := rfl
theorem unassignedD : Statement .unassignedD := rfl
theorem wait : Statement .wait := rfl
theorem hlt : Statement .hlt := rfl

end Sys2Proof.Laws.Canonical
end

