-- ==== Sys2Proof/Tests/Slice0.lean ====
section
/-! SUPPORT. The model's own tests: the smoke test of WellFormed, words written out from 30_encoding R65 to R68, at most
two steps per instruction on the vectors of 95_test_vectors (their ids stand in the comments), and for every statement
with hypotheses a witness that meets them. Expected values come from the spec's tables. -/

namespace Sys2Proof.Tests

open Sys2Proof.Machine

/-- The start of a vector: two bytes at pc, registers and flags as given, everything else as after reset. -/
def start (pc byte1 byte2 : Byte) (x : Regs) (z c : Bool) : State :=
  (({ State.reset with pc := pc, regs := x, z := z, c := c }).setCell pc byte1).setCell (pc + 1#8) byte2

/-- Two bytes at pc in a machine that is otherwise as after reset. -/
def at' (pc byte1 byte2 : Byte) : State := start pc byte1 byte2 ⟨0#8, 0#8, 0#8, 0#8⟩ false false

/-- The start of the rows of B2. -/
def startB2 (byte1 byte2 : Byte) : State := start 0x10#8 byte1 byte2 ⟨0x2A#8, 7#8, 0#8, 9#8⟩ true true

/-- The next state of an outcome, if it is one. -/
def nextOf (o : Host.Outcome State Fault Refusal) : Option State :=
  match o with
  | .next t => some t
  | .fault _ => none
  | .refused _ => none

/-- What a step leaves in registers, flags and pc. -/
def cpuAfter (s : State) : Option (Regs × Bool × Bool × Byte) :=
  (nextOf (step s)).map (fun t => (t.regs, t.z, t.c, t.pc))

/-! ## WellFormed: one ill-formed encoding for each check, refused; and the canonical one accepted -/

/-- R70, R81: `10 05` with an operand byte MOV does not read. -/
theorem test_wellformed_operand : (fieldsOf 0x10#8 0x05#8).operandCanonical = false := by decide
/-- R70: the rd field of JMP, `8C 40`. -/
theorem test_wellformed_rd : (fieldsOf 0x8C#8 0x40#8).rdCanonical = false := by decide
/-- R70: the rs field of LDI, `57 09` (B5-10). -/
theorem test_wellformed_rs : (fieldsOf 0x57#8 0x09#8).rsCanonical = false := by decide
/-- Each of the three fails the whole check, and R88's `54 03` passes it. -/
theorem test_wellformed_canonical :
    (fieldsOf 0x10#8 0x05#8).canonical = false ∧ (fieldsOf 0x8C#8 0x40#8).canonical = false ∧
    (fieldsOf 0x57#8 0x09#8).canonical = false ∧ (fieldsOf 0x54#8 0x03#8).canonical = true := by decide
/-- R76: an unassigned opcode has no mnemonic. -/
theorem test_wellformed_mnemonic :
    Instr.unassignedA.hasMnemonic = false ∧ Instr.wait.hasMnemonic = true := by decide

/-! ## Decode: words written bit by bit, `oooo dd ss`, from R65 and R68 -/

theorem test_decode_nop : decode 0b00000000#8 0x00#8 = .nop ∧ decode 0b00001111#8 0xFF#8 = .nop := by decide
theorem test_decode_mov : decode 0b00011100#8 0x00#8 = .mov .r3 .r0 ∧ decode 0b00011001#8 0x00#8 = .mov .r2 .r1 := by
  decide
theorem test_decode_unassigned2 : decode 0b00101010#8 0x00#8 = .unassigned2 := by decide
theorem test_decode_add : decode 0b00110001#8 0x00#8 = .add .r0 .r1 ∧ decode 0b00111010#8 0x00#8 = .add .r2 .r2 := by
  decide
theorem test_decode_sub : decode 0b01000001#8 0x00#8 = .sub .r0 .r1 ∧ decode 0b01001011#8 0x00#8 = .sub .r2 .r3 := by
  decide
theorem test_decode_ldi : decode 0b01010100#8 0x03#8 = .ldi .r1 0x03#8 ∧
    decode 0b01010111#8 0x09#8 = .ldi .r1 0x09#8 := by decide
theorem test_decode_ldr : decode 0b01100100#8 0x10#8 = .ldr .r1 0x10#8 ∧
    decode 0b01100000#8 0xF0#8 = .ldr .r0 0xF0#8 := by decide
theorem test_decode_str : decode 0b01110011#8 0xF1#8 = .str .r3 0xF1#8 ∧
    decode 0b01110100#8 0x10#8 = .str .r0 0x10#8 := by decide
theorem test_decode_jmp : decode 0b10000000#8 0xFE#8 = .jmp 0xFE#8 ∧ decode 0b10001111#8 0x40#8 = .jmp 0x40#8 := by
  decide
theorem test_decode_unassigned9 : decode 0b10010000#8 0x00#8 = .unassigned9 := by decide
theorem test_decode_unassignedA : decode 0b10100101#8 0x00#8 = .unassignedA := by decide
theorem test_decode_unassignedB : decode 0b10110000#8 0x00#8 = .unassignedB := by decide
theorem test_decode_unassignedC : decode 0b11001100#8 0x00#8 = .unassignedC := by decide
theorem test_decode_unassignedD : decode 0b11011111#8 0x00#8 = .unassignedD := by decide
theorem test_decode_wait : decode 0b11100000#8 0x00#8 = .wait ∧ decode 0b11101111#8 0xFF#8 = .wait := by decide
theorem test_decode_hlt : decode 0b11110000#8 0x00#8 = .hlt ∧ decode 0b11111111#8 0xFF#8 = .hlt := by decide

/-- R88: the encoder against the table of canonical encodings. -/
theorem test_encode :
    encode .nop = (0x00#8, 0x00#8) ∧ encode (.mov .r2 .r1) = (0x19#8, 0x00#8) ∧
    encode (.add .r2 .r2) = (0x3A#8, 0x00#8) ∧ encode (.sub .r1 .r1) = (0x45#8, 0x00#8) ∧
    encode (.ldi .r3 0xFF#8) = (0x5C#8, 0xFF#8) ∧ encode (.ldr .r1 0x10#8) = (0x64#8, 0x10#8) ∧
    encode (.str .r3 0xF1#8) = (0x73#8, 0xF1#8) ∧ encode (.jmp 0xFE#8) = (0x80#8, 0xFE#8) ∧
    encode .wait = (0xE0#8, 0x00#8) ∧ encode .hlt = (0xF0#8, 0x00#8) := by decide
/-- R64: `W = byte1 * 256 + byte2`; no instruction is longer than 16 bits. -/
theorem test_table_word :
    decodeTableWord 16 0b0111110000010000 = some (.str .r0 0x10#8) ∧
    decodeTableWord 16 0x5705 = some (.ldi .r1 0x05#8) ∧ decodeTableWord 24 0x5705 = none := by decide
/-- R48, R63: P1's image, and an image that ends inside an instruction. -/
theorem test_decode_image :
    decodeImage [0x50#8, 0x05#8, 0x54#8, 0x03#8, 0x31#8, 0x00#8, 0xF0#8, 0x00#8] =
      .ok [.ldi .r0 0x05#8, .ldi .r1 0x03#8, .add .r0 .r1, .hlt] ∧
    decodeImage [0x50#8, 0x05#8, 0xF0#8] = .error .truncated ∧
    decodeBytes [0xE0#8, 0x00#8, 0x60#8] = .ok (.wait, [0x60#8]) := by decide

/-! ## Steps: the register instructions -/

/-- B2-2 -/
theorem test_nop : nextOf (step (startB2 0x05#8 0xFF#8)) =
    some { startB2 0x05#8 0xFF#8 with pc := 0x12#8 } := by decide
/-- B2-3 -/
theorem test_mov : cpuAfter (startB2 0x1C#8 0x00#8) =
    some (⟨0x2A#8, 7#8, 0#8, 0x2A#8⟩, true, true, 0x12#8) := by decide
/-- B2-5: a zero copied does not write Z, and MOV R1, R2 does not copy the other way. -/
theorem test_mov_zero : cpuAfter (startB2 0x16#8 0x00#8) =
    some (⟨0x2A#8, 0#8, 0#8, 9#8⟩, true, true, 0x12#8) := by decide
/-- B3-6 -/
theorem test_add_carry : cpuAfter (start 0#8 0x31#8 0x00#8 ⟨200#8, 100#8, 0#8, 0#8⟩ false false) =
    some (⟨44#8, 100#8, 0#8, 0#8⟩, false, true, 2#8) := by decide
/-- B3-11: source and destination the same register, wrapping to zero. -/
theorem test_add_same : cpuAfter (start 0#8 0x3A#8 0x00#8 ⟨0#8, 0#8, 0x80#8, 0#8⟩ false false) =
    some (⟨0#8, 0#8, 0#8, 0#8⟩, true, true, 2#8) := by decide
/-- B4-2 -/
theorem test_sub_borrow : cpuAfter (start 0#8 0x41#8 0x00#8 ⟨3#8, 5#8, 0#8, 0#8⟩ false false) =
    some (⟨254#8, 5#8, 0#8, 0#8⟩, false, true, 2#8) := by decide
/-- B4-10: the old Carry is no input and is cleared. -/
theorem test_sub_same : cpuAfter (start 0#8 0x45#8 0x00#8 ⟨0#8, 0xC3#8, 0#8, 0#8⟩ false true) =
    some (⟨0#8, 0#8, 0#8, 0#8⟩, true, false, 2#8) := by decide

/-! ## Steps: load and store -/

/-- B5-1 -/
theorem test_ldi_zero : cpuAfter (start 0#8 0x58#8 0x00#8 ⟨1#8, 2#8, 3#8, 4#8⟩ false true) =
    some (⟨1#8, 2#8, 0#8, 4#8⟩, true, true, 2#8) := by decide
/-- B10-2: LDI fetched across the wrap at the top of memory. -/
theorem test_ldi_wrap : cpuAfter (start 0xFF#8 0x50#8 0x09#8 ⟨0#8, 0#8, 0#8, 0#8⟩ true false) =
    some (⟨9#8, 0#8, 0#8, 0#8⟩, false, false, 0x01#8) := by decide
/-- B5-5: a fed zero byte, popped. -/
theorem test_ldr_port :
    (nextOf (step { at' 0#8 0x60#8 0xF0#8 with inQ := [0x00#8, 0x07#8] })).map
      (fun t => (t.regs.r0, t.z, t.inQ)) = some (0#8, true, [0x07#8]) := by decide
/-- B5-9: without a channel 0xF0 is plain storage. -/
theorem test_ldr_no_channel :
    (nextOf (step { (at' 0#8 0x60#8 0xF0#8).setCell 0xF0#8 0x55#8 with ioAttached := false })).map
      (fun t => (t.regs.r0, t.z)) = some (0x55#8, false) := by decide
/-- B6-5: the register stored is the one the rs field names. -/
theorem test_str_rs :
    (nextOf (step (start 0#8 0x74#8 0x10#8 ⟨1#8, 2#8, 0#8, 0#8⟩ false false))).map
      (fun t => (t.cell 0x10#8, t.outLog)) = some (1#8, []) := by decide
/-- B6-2: the output port. -/
theorem test_str_port :
    (nextOf (step (start 0#8 0x73#8 0xF1#8 ⟨0#8, 0#8, 0#8, 200#8⟩ false false))).map
      (fun t => (t.outLog, t.cell 0xF1#8)) = some ([200#8], 0#8) := by decide

/-! ## Steps: control -/

/-- B7-3 -/
theorem test_jmp_odd : (nextOf (step (at' 0#8 0x80#8 0xFF#8))).map State.pc = some 0xFF#8 := by decide
/-- B7-2 -/
theorem test_jmp_self : nextOf (step (at' 6#8 0x80#8 0x06#8)) = some (at' 6#8 0x80#8 0x06#8) := by decide
/-- B8-4: the rewind is modulo 256. -/
theorem test_wait_empty : nextOf (step (at' 0xFF#8 0xE0#8 0x00#8)) = some (at' 0xFF#8 0xE0#8 0x00#8) := by decide
/-- B8-2: the queue is not popped. -/
theorem test_wait_fed :
    (nextOf (step { at' 0#8 0xE0#8 0x00#8 with inQ := [0x41#8] })).map (fun t => (t.pc, t.inQ)) =
      some (2#8, [0x41#8]) := by decide
/-- B9-2 -/
theorem test_hlt : (nextOf (step (at' 0xFE#8 0xFF#8 0xFF#8))).map (fun t => (t.halted, t.pc)) =
    some (true, 0x00#8) := by decide
/-- B9-4: no fetch happens while halted. -/
theorem test_hlt_terminal :
    nextOf (step { State.reset with halted := true, pc := 0xF0#8, inQ := [1#8] }) =
      some { State.reset with halted := true, pc := 0xF0#8, inQ := [1#8] } := by decide

/-! ## Steps: the unassigned opcodes (R107, with the bytes of B1 and B2-8) -/

theorem test_unassigned2 : nextOf (step (startB2 0x20#8 0x00#8)) =
    some { startB2 0x20#8 0x00#8 with pc := 0x12#8 } := by decide
theorem test_unassigned9 : nextOf (step (startB2 0x9F#8 0xFF#8)) =
    some { startB2 0x9F#8 0xFF#8 with pc := 0x12#8 } := by decide
theorem test_unassignedA : nextOf (step (startB2 0xA5#8 0x00#8)) =
    some { startB2 0xA5#8 0x00#8 with pc := 0x12#8 } := by decide
theorem test_unassignedB : nextOf (step (startB2 0xB0#8 0x00#8)) =
    some { startB2 0xB0#8 0x00#8 with pc := 0x12#8 } := by decide
theorem test_unassignedC : nextOf (step (startB2 0xCC#8 0x00#8)) =
    some { startB2 0xCC#8 0x00#8 with pc := 0x12#8 } := by decide
theorem test_unassignedD : nextOf (step (startB2 0xDF#8 0x00#8)) =
    some { startB2 0xDF#8 0x00#8 with pc := 0x12#8 } := by decide

/-! ## Ports, memory and the host -/

/-- B11-2: byte1 from the queue, byte2 from the cell under the output port. -/
theorem test_fetch_f0 :
    (nextOf (step { State.reset with pc := 0xF0#8, regs := ⟨0#8, 9#8, 0#8, 0#8⟩, inQ := [0x54#8] })).map
      (fun t => (t.regs.r1, t.z, t.inQ, t.pc)) = some (0#8, true, [], 0xF2#8) := by decide
/-- B11-1: byte2 from the queue. -/
theorem test_fetch_ef :
    (nextOf (step { at' 0xEF#8 0x50#8 0x00#8 with inQ := [0x37#8] })).map
      (fun t => (t.regs.r0, t.z, t.inQ, t.pc)) = some (0x37#8, false, [], 0xF1#8) := by decide
/-- B8-5 and B8-6: the WAIT at 0xEF. -/
theorem test_wait_at_ef :
    (nextOf (step { at' 0xEF#8 0xE0#8 0x00#8 with inQ := [5#8] })).map (fun t => (t.inQ, t.pc)) = some ([], 0xEF#8) ∧
    (nextOf (step { at' 0xEF#8 0xE0#8 0x00#8 with inQ := [5#8, 6#8] })).map (fun t => (t.inQ, t.pc)) =
      some ([6#8], 0xF1#8) := by decide
/-- The canonical form: entries rise, storing 0x00 removes, storing again replaces. -/
theorem test_memory_form :
    ((State.reset.setCell 9#8 1#8).setCell 4#8 2#8).mem = [(4, 2#8), (9, 1#8)] ∧
    (((State.reset.setCell 9#8 1#8).setCell 4#8 2#8).setCell 9#8 0#8).mem = [(4, 2#8)] ∧
    ((State.reset.setCell 9#8 1#8).setCell 9#8 3#8).mem = [(9, 3#8)] ∧
    Memory.wf [(9, 1#8), (4, 2#8)] = false ∧ Memory.wf [(4, 0#8)] = false ∧ Memory.wf [(256, 1#8)] = false := by
  decide
/-- B12-1 -/
theorem test_load :
    (loadProgram [0x50#8, 0x05#8, 0x54#8, 0x03#8, 0x31#8, 0x00#8, 0xF0#8, 0x00#8] State.reset).mem =
      [(0, 0x50#8), (1, 0x05#8), (2, 0x54#8), (3, 0x03#8), (4, 0x31#8), (6, 0xF0#8)] := by decide
/-- R133: the byte of an image that falls on 0xF1 is emitted. -/
theorem test_load_port :
    (loadFrom 0xF0 [0xAA#8, 0xBB#8, 0xCC#8] State.reset).mem = [(0xF0, 0xAA#8), (0xF2, 0xCC#8)] ∧
    (loadFrom 0xF0 [0xAA#8, 0xBB#8, 0xCC#8] State.reset).outLog = [0xBB#8] := by decide
/-- R136: `"A"` gives 65; R138 and B9-5: input does not wake the halted machine. -/
theorem test_feed :
    (feedText .clamp ['A'] State.reset).inQ = [65#8] ∧
    (feedText .mask ['A', 'ā'] State.reset).inQ = [65#8, 1#8] ∧
    (feedText .clamp ['ā'] State.reset).inQ = [255#8] ∧
    nextOf (step (feedInput [0x41#8] { State.reset with halted := true })) =
      some { State.reset with halted := true, inQ := [0x41#8] } := by decide
/-- `withFetchWord` runs the word next, at reset and where a fetch read is redirected. -/
theorem test_with_fetch_word :
    (nextOf (step (State.reset.withFetchWord 16 0x5405))).map (fun t => (t.regs.r1, t.pc)) = some (5#8, 2#8) ∧
    (nextOf (step (({ State.reset with pc := 0xEF#8, halted := true }).withFetchWord 16 0x5405))).map
      (fun t => (t.regs.r1, t.pc, t.inQ)) = some (5#8, 0xF1#8, []) ∧
    (nextOf (step (({ State.reset with pc := 0xF0#8, inQ := [7#8] }).withFetchWord 16 0x5405))).map
      (fun t => (t.regs.r1, t.pc, t.inQ)) = some (5#8, 0xF2#8, [7#8]) := by decide
/-- The host's interface: one step of `core` from its reset, a NOP (R31). -/
theorem test_core : (nextOf (core.run 1 core.reset)).map State.pc = some 2#8 := by decide

/-! ## The assembler -/

/-- B13-1 -/
theorem test_asm_p1 :
    assemble "LDI R0, 5\nLDI R1, 3\nADD R0, R1\nHLT".toList =
      .ok [0x50#8, 0x05#8, 0x54#8, 0x03#8, 0x31#8, 0x00#8, 0xF0#8, 0x00#8] := by decide
/-- B13-3, B13-4 -/
theorem test_asm_lines :
    assemble "; comment line\n\nnop".toList = .ok [0x00#8, 0x00#8] ∧
    assemble "MOV R3 , R0".toList = .ok [0x1C#8, 0x00#8] := by decide
/-- B13-6, B13-7, B13-8 -/
theorem test_asm_numbers :
    assemble "LDI R2, 300".toList = .ok [0x58#8, 0x2C#8] ∧
    assemble "STR R3, 241\nJMP 254".toList = .ok [0x73#8, 0xF1#8, 0x80#8, 0xFE#8] := by decide
/-- B13-10 to B13-15, by the names the model gives the failures -/
theorem test_asm_failures :
    assemble "FOO R0, R1".toList = .error (.unknownMnemonic "FOO".toList) ∧
    assemble "MOV R4, R0".toList = .error (.unknownRegister "R4".toList) ∧
    assemble "LDI R0, 0x10".toList = .error (.malformedNumber "0x10".toList) ∧
    assemble "LDI R0".toList = .error (.missingOperand "LDI".toList) ∧
    assemble "LDI R0, 5\nFOO".toList = .error (.unknownMnemonic "FOO".toList) ∧
    assemble "LDR R1, [16]".toList = .error (.malformedNumber "[16]".toList) := by decide
/-- R87: what the spec leaves open is refused by name (log 12). -/
theorem test_asm_open :
    assemble "HLT ; stop".toList = .error (.openExtraToken ";".toList) ∧
    assemble "add r0, r1".toList = .error (.openRegisterCase "r0".toList) ∧
    assemble "LDI R0, -1".toList = .error (.openSign "-1".toList) ∧
    assemble " ; text".toList = .error .openIndentedComment ∧
    assemble ",".toList = .error .openNoToken := by decide
/-- R77, R87: the canonical text. -/
theorem test_listing : listing [.str .r3 0xF1#8, .wait] = some "STR R3, 241\nWAIT\n".toList := by decide

/-! ## Witnesses: for every statement with hypotheses, a state and operands that meet them, clause by clause -/

/-- The machine of a witness with a queue. -/
def fed (s : State) (q : List Byte) : State := { s with inQ := q }

/-- The same machine built without an IOChannel. -/
def bare (s : State) : State := { s with ioAttached := false }

/-- The same machine, halted. -/
def stopped (s : State) : State := { s with halted := true }

/-- Halted; running with the two reads at the top of memory, at 0xEF and at 0xF0 (where they take a byte). -/
theorem test_witness_StepRunsTheDecodedInstruction :
    (stopped State.reset).halted = true ∧
    (at' 0xFF#8 0x50#8 0x09#8).halted = false ∧
    memRead 0xFF#8 (at' 0xFF#8 0x50#8 0x09#8) = (0x50#8, at' 0xFF#8 0x50#8 0x09#8) ∧
    memRead (0xFF#8 + 1#8) (at' 0xFF#8 0x50#8 0x09#8) = (0x09#8, at' 0xFF#8 0x50#8 0x09#8) ∧
    memRead 0xEF#8 (fed (at' 0xEF#8 0x50#8 0#8) [7#8]) = (0x50#8, fed (at' 0xEF#8 0x50#8 0#8) [7#8]) ∧
    memRead (0xEF#8 + 1#8) (fed (at' 0xEF#8 0x50#8 0#8) [7#8]) = (7#8, at' 0xEF#8 0x50#8 0#8) ∧
    memRead 0xF0#8 (fed (at' 0xF0#8 0#8 3#8) [7#8]) = (7#8, at' 0xF0#8 0#8 3#8) := by decide

/-- A JMP, a WAIT with and without input, an ADD at the top of memory, and the halted machine. -/
theorem test_witness_ProgramCounterAfterStep :
    (Fetches (at' 6#8 0x8F#8 0xFF#8) 0x8F#8 0xFF#8 (at' 6#8 0x8F#8 0xFF#8) ∧ HasFields 0x8F#8 8 .r3 .r3) ∧
    (Fetches (fed (at' 6#8 0xE0#8 0#8) [1#8]) 0xE0#8 0#8 (fed (at' 6#8 0xE0#8 0#8) [1#8]) ∧
      HasFields 0xE0#8 14 .r0 .r0 ∧ inEmpty (fed (at' 6#8 0xE0#8 0#8) [1#8]) = false) ∧
    (Fetches (at' 6#8 0xE0#8 0#8) 0xE0#8 0#8 (at' 6#8 0xE0#8 0#8) ∧ inEmpty (at' 6#8 0xE0#8 0#8) = true) ∧
    (Fetches (at' 0xFE#8 0x31#8 0#8) 0x31#8 0#8 (at' 0xFE#8 0x31#8 0#8) ∧ HasFields 0x31#8 3 .r0 .r1) ∧
    (stopped State.reset).halted = true := by
  simp only [Fetches, HasFields]; decide

theorem test_witness_RegistersAreIndependent : Reg.r0 ≠ Reg.r1 := by decide

/-- The lowest and the highest byte1 of all sixteen opcodes. -/
theorem test_witness_DecodeByOpcode :
    (∀ op : Fin 16, HasFields (BitVec.ofNat 8 (op.val * 16)) op.val .r0 .r0 ∧
      HasFields (BitVec.ofNat 8 (op.val * 16 + 15)) op.val .r3 .r3) ∧ HasFields 0x79#8 7 .r2 .r1 := by
  simp only [HasFields]; decide

/-- B2-2, away from the port and at 0xF0 with nothing queued. -/
theorem test_witness_NopOnlyAdvances :
    (Fetches (startB2 0x05#8 0xFF#8) 0x05#8 0xFF#8 (startB2 0x05#8 0xFF#8) ∧ HasFields 0x05#8 0 .r1 .r1 ∧
      FetchAvoidsPort (startB2 0x05#8 0xFF#8)) ∧
    (Fetches (at' 0xF0#8 0xF0#8 0#8) 0x00#8 0#8 (at' 0xF0#8 0xF0#8 0#8) ∧ HasFields 0x00#8 0 .r0 .r0) := by
  simp only [Fetches, HasFields, FetchAvoidsPort]; decide

theorem test_witness_MovAddSubFields :
    HasFields 0x15#8 1 .r1 .r1 ∧ HasFields 0x1C#8 1 .r3 .r0 ∧ HasFields 0x3A#8 3 .r2 .r2 ∧
    HasFields 0x41#8 4 .r0 .r1 := by
  simp only [HasFields]; decide

/-- Sums 0, 1, 255, 256, 257 and 510, differences 0, 1 and -1: an operand pair on each side of every border of R95. -/
theorem test_witness_ArithmeticFlagPairs :
    (cpuAfter (start 0#8 0x31#8 0#8 ⟨0#8, 1#8, 0#8, 0#8⟩ true true)).map (fun t => t.2) = some (false, false, 2#8) ∧
    (cpuAfter (start 0#8 0x31#8 0#8 ⟨0#8, 255#8, 0#8, 0#8⟩ true true)).map (fun t => t.2) =
      some (false, false, 2#8) ∧
    (cpuAfter (start 0#8 0x31#8 0#8 ⟨0#8, 0#8, 0#8, 0#8⟩ false true)).map (fun t => t.2) = some (true, false, 2#8) ∧
    (cpuAfter (start 0#8 0x31#8 0#8 ⟨255#8, 1#8, 0#8, 0#8⟩ false false)).map (fun t => t.2) = some (true, true, 2#8) ∧
    (cpuAfter (start 0#8 0x31#8 0#8 ⟨255#8, 2#8, 0#8, 0#8⟩ true false)).map (fun t => t.2) = some (false, true, 2#8) ∧
    (cpuAfter (start 0#8 0x31#8 0#8 ⟨255#8, 255#8, 0#8, 0#8⟩ true false)).map (fun t => t.2) =
      some (false, true, 2#8) ∧
    (cpuAfter (start 0#8 0x41#8 0#8 ⟨7#8, 7#8, 0#8, 0#8⟩ false true)).map (fun t => t.2) = some (true, false, 2#8) ∧
    (cpuAfter (start 0#8 0x41#8 0#8 ⟨8#8, 7#8, 0#8, 0#8⟩ true true)).map (fun t => t.2) = some (false, false, 2#8) ∧
    (cpuAfter (start 0#8 0x41#8 0#8 ⟨7#8, 8#8, 0#8, 0#8⟩ true false)).map (fun t => t.2) =
      some (false, true, 2#8) := by decide

/-- Fields of LDI, LDR and STR with an ignored field set. -/
theorem test_witness_LoadStoreFields :
    HasFields 0x57#8 5 .r1 .r3 ∧ HasFields 0x6F#8 6 .r3 .r3 ∧ HasFields 0x74#8 7 .r1 .r0 := by
  simp only [HasFields]; decide

/-- LDR's three clauses: 0xF0 empty, 0xF0 with a byte, and every way to be neither (0xEF, 0xF1, no channel). -/
theorem test_witness_LdrLoadsByte :
    (State.reset.ioAttached = true ∧ State.reset.inQ = []) ∧
    ((fed State.reset [5#8]).ioAttached = true ∧ (fed State.reset [5#8]).inQ = 5#8 :: []) ∧
    ¬(State.reset.ioAttached = true ∧ 0xEF#8 = 0xF0#8) ∧ ¬(State.reset.ioAttached = true ∧ 0xF1#8 = 0xF0#8) ∧
    ¬((bare State.reset).ioAttached = true ∧ 0xF0#8 = 0xF0#8) := by decide

/-- STR's two clauses: 0xF1 with a channel, and 0xF0, 0xF2 and no channel. -/
theorem test_witness_StrStoresByte :
    (State.reset.ioAttached = true ∧ 0xF1#8 = 0xF1#8) ∧
    ¬(State.reset.ioAttached = true ∧ 0xF0#8 = 0xF1#8) ∧ ¬(State.reset.ioAttached = true ∧ 0xF2#8 = 0xF1#8) ∧
    ¬((bare State.reset).ioAttached = true ∧ 0xF1#8 = 0xF1#8) := by decide

/-- The three branches: both ports with a channel, and plain storage. -/
theorem test_witness_LoadAfterStore :
    (State.reset.ioAttached = true ∧ 0xF0#8 = 0xF0#8) ∧
    (¬(State.reset.ioAttached = true ∧ 0xF1#8 = 0xF0#8) ∧ State.reset.ioAttached = true ∧ 0xF1#8 = 0xF1#8) ∧
    ¬(State.reset.ioAttached = true ∧ 0xF2#8 = 0xF0#8) ∧ ¬(State.reset.ioAttached = true ∧ 0xF2#8 = 0xF1#8) := by
  decide

/-- B6-7, a STR over its own byte1; a STR to 0xF0, which no read sees; and without a channel one to 0xF1. -/
theorem test_witness_StoreIsSeenByNextFetch :
    (Fetches (at' 0x30#8 0x70#8 0x30#8) 0x70#8 0x30#8 (at' 0x30#8 0x70#8 0x30#8) ∧
      decode 0x70#8 0x30#8 = .str .r0 0x30#8 ∧ writesPort (at' 0x30#8 0x70#8 0x30#8) 0x30#8 = false ∧
      readsPort (at' 0x30#8 0x70#8 0x30#8) 0x30#8 = false ∧ 0x30#8 ≠ 0xF1#8) ∧
    (writesPort State.reset 0xF0#8 = false ∧ readsPort State.reset 0xF0#8 = true) ∧
    (writesPort (bare State.reset) 0xF1#8 = false ∧ readsPort (bare State.reset) 0xF1#8 = false) := by
  simp only [Fetches]; decide

/-- B7-4's JMP and B7-2's, to itself. -/
theorem test_witness_JmpSetsProgramCounter :
    (Fetches (at' 0#8 0x8F#8 0x40#8) 0x8F#8 0x40#8 (at' 0#8 0x8F#8 0x40#8) ∧ HasFields 0x8F#8 8 .r3 .r3) ∧
    (Fetches (at' 6#8 0x80#8 0x06#8) 0x80#8 0x06#8 (at' 6#8 0x80#8 0x06#8) ∧ HasFields 0x80#8 8 .r0 .r0 ∧
      FetchAvoidsPort (at' 6#8 0x80#8 0x06#8)) := by
  simp only [Fetches, HasFields, FetchAvoidsPort]; decide

theorem test_witness_JmpToItselfLoopsForever :
    Fetches (at' 0xFE#8 0x80#8 0xFE#8) 0x80#8 0xFE#8 (at' 0xFE#8 0x80#8 0xFE#8) ∧ HasFields 0x80#8 8 .r0 .r0 := by
  simp only [Fetches, HasFields]; decide

/-- A WAIT with nothing queued (B8-4), with a byte queued (B8-2), and at 0xEF, where the fetch eats the byte (B8-5). -/
theorem test_witness_WaitRewindsOnEmptyQueue :
    (Fetches (at' 0xFF#8 0xE0#8 0#8) 0xE0#8 0#8 (at' 0xFF#8 0xE0#8 0#8) ∧ HasFields 0xE0#8 14 .r0 .r0 ∧
      (at' 0xFF#8 0xE0#8 0#8).ioAttached = true ∧ (at' 0xFF#8 0xE0#8 0#8).inQ = [] ∧
      FetchAvoidsPort (at' 0xFF#8 0xE0#8 0#8)) ∧
    (Fetches (fed (at' 0#8 0xE0#8 0#8) [0x41#8]) 0xE0#8 0#8 (fed (at' 0#8 0xE0#8 0#8) [0x41#8]) ∧
      (fed (at' 0#8 0xE0#8 0#8) [0x41#8]).inQ ≠ []) ∧
    Fetches (fed (at' 0xEF#8 0xE0#8 0#8) [5#8]) 0xE0#8 5#8 (at' 0xEF#8 0xE0#8 0#8) := by
  simp only [Fetches, HasFields, FetchAvoidsPort]; decide

/-- B8-7, with bytes queued all the same (log 18). -/
theorem test_witness_WaitWithoutChannelNeverPasses :
    (bare (fed (at' 0#8 0xE0#8 0#8) [1#8])).ioAttached = false ∧
    Fetches (bare (fed (at' 0#8 0xE0#8 0#8) [1#8])) 0xE0#8 0#8 (bare (fed (at' 0#8 0xE0#8 0#8) [1#8])) ∧
    HasFields 0xE0#8 14 .r0 .r0 := by
  simp only [Fetches, HasFields]; decide

/-- The starts of B8-5 and B8-6. -/
theorem test_witness_WaitAtInputPortEatsItsInput :
    (at' 0xEF#8 0xE0#8 0#8).ioAttached = true ∧ (at' 0xEF#8 0xE0#8 0#8).halted = false ∧
    (at' 0xEF#8 0xE0#8 0#8).pc = 0xEF#8 ∧ HasFields ((at' 0xEF#8 0xE0#8 0#8).cell 0xEF#8) 14 .r0 .r0 ∧
    (fed (at' 0xEF#8 0xE0#8 0#8) [5#8]).inQ = [5#8] ∧
    (fed (at' 0xEF#8 0xE0#8 0#8) [5#8, 6#8]).inQ = 5#8 :: 6#8 :: [] := by
  simp only [HasFields]; decide

/-- B8-8's start, and a WAIT at 0xEE, the last one whose fetch avoids the port. -/
theorem test_witness_WaitSpinsUntilHostFeeds :
    ((at' 0#8 0xE0#8 0#8).ioAttached = true ∧ (at' 0#8 0xE0#8 0#8).halted = false ∧
      FetchAvoidsPort (at' 0#8 0xE0#8 0#8) ∧ HasFields ((at' 0#8 0xE0#8 0#8).cell 0#8) 14 .r0 .r0 ∧
      (at' 0#8 0xE0#8 0#8).inQ = []) ∧
    (FetchAvoidsPort (at' 0xEE#8 0xE0#8 0#8) ∧ HasFields ((at' 0xEE#8 0xE0#8 0#8).cell 0xEE#8) 14 .r0 .r0) := by
  simp only [HasFields, FetchAvoidsPort]; decide

/-- B9-2's HLT at the top of memory, and one taken from the queue at 0xF0 (B11-4's last step). -/
theorem test_witness_HltHaltsTwoPastItself :
    (Fetches (at' 0xFE#8 0xFF#8 0xFF#8) 0xFF#8 0xFF#8 (at' 0xFE#8 0xFF#8 0xFF#8) ∧ HasFields 0xFF#8 15 .r3 .r3 ∧
      FetchAvoidsPort (at' 0xFE#8 0xFF#8 0xFF#8)) ∧
    (Fetches (fed (at' 0xF0#8 0#8 0#8) [0xF3#8]) 0xF3#8 0#8 (at' 0xF0#8 0#8 0#8) ∧ HasFields 0xF3#8 15 .r0 .r3) := by
  simp only [Fetches, HasFields, FetchAvoidsPort]; decide

/-- One byte1 of B1 for each of the six opcodes, and a fetch of B2-8's. -/
theorem test_witness_UnassignedOpcodesOnlyAdvance :
    (Fetches (startB2 0x9F#8 0xFF#8) 0x9F#8 0xFF#8 (startB2 0x9F#8 0xFF#8) ∧ HasFields 0x9F#8 9 .r3 .r3 ∧
      FetchAvoidsPort (startB2 0x9F#8 0xFF#8)) ∧
    HasFields 0x2A#8 2 .r2 .r2 ∧ HasFields 0xA5#8 10 .r1 .r1 ∧ HasFields 0xB0#8 11 .r0 .r0 ∧
    HasFields 0xCC#8 12 .r3 .r0 ∧ HasFields 0xDF#8 13 .r3 .r3 := by
  simp only [Fetches, HasFields, FetchAvoidsPort]; decide

/-- An instruction outside each of the exceptions the clauses name. -/
theorem test_witness_WritersOfEachState :
    (∀ rs addr, Instr.nop ≠ .str rs addr) ∧ (∀ addr, Instr.nop ≠ .jmp addr) ∧ Instr.nop ≠ .wait ∧
    (∀ rd addr, Instr.nop ≠ .ldr rd addr) ∧ Instr.nop ≠ .hlt := by simp

/-- A fetched HLT, a fetched NOP, and a halted machine with a move of each sort. -/
theorem test_witness_HaltedIsSetOnlyByHltAndClearedOnlyByReset :
    (Fetches (at' 6#8 0xF0#8 0#8) 0xF0#8 0#8 (at' 6#8 0xF0#8 0#8) ∧ decode 0xF0#8 0#8 = .hlt) ∧
    (Fetches (at' 6#8 0x00#8 0#8) 0x00#8 0#8 (at' 6#8 0x00#8 0#8) ∧ decode 0x00#8 0#8 ≠ .hlt) ∧
    (stopped State.reset).halted = true ∧ Move.step ≠ Move.reset ∧ Move.feed [1#8] ≠ Move.reset := by
  simp only [Fetches]; decide

theorem test_witness_HaltedMachineIsInert : (stopped (at' 8#8 0x50#8 7#8)).halted = true := by decide

/-- Two states with both flags different. -/
theorem test_witness_FlagsNeverSteerTheMachine :
    EqualButFlags (start 0#8 0x31#8 0#8 ⟨1#8, 2#8, 3#8, 4#8⟩ true false)
      (start 0#8 0x31#8 0#8 ⟨1#8, 2#8, 3#8, 4#8⟩ false true) := by
  simp only [EqualButFlags]; decide

/-- A fetch that takes byte1, one that takes byte2, and an LDR that takes its data. -/
theorem test_witness_InputIsConsumedOneBytePerPortRead :
    (Fetches (fed (at' 0xF0#8 0#8 0#8) [1#8]) 1#8 0#8 (at' 0xF0#8 0#8 0#8) ∧
      readsPort (fed (at' 0xF0#8 0#8 0#8) [1#8]) 0xF0#8 = true) ∧
    (Fetches (fed (at' 0xEF#8 0x60#8 0#8) [0xF0#8, 1#8]) 0x60#8 0xF0#8 (fed (at' 0xEF#8 0x60#8 0#8) [1#8]) ∧
      decode 0x60#8 0xF0#8 = .ldr .r0 0xF0#8) ∧
    readsPort State.reset 0xEF#8 = false := by
  simp only [Fetches]; decide

/-- B5-4's start beside the same state with another byte in the cell. -/
theorem test_witness_InputPortCellIsInert :
    State.reset.ioAttached = true ∧ EqualButCell 0xF0#8 (State.reset.setCell 0xF0#8 0x55#8) State.reset := by
  refine ⟨rfl, rfl, fun b hb => ?_⟩
  have : ¬(0xF0 = b.toNat) := fun h => hb (BitVec.eq_of_toNat_eq h.symm)
  simp [State.cell, State.setCell, State.reset, State.resetOf, Memory.cell, Memory.store, Memory.erase, Memory.place,
    Config.memReset, this]

theorem test_witness_OutputPortCellIsNeverWritten :
    State.reset.ioAttached = true ∧ Move.reset ∉ [Move.step, Move.load [0xBB#8], Move.feed [1#8]] := by decide

/-- A state that meets the invariant with memory listed and output emitted, and its next state. -/
theorem test_witness_StepKeepsInvariant :
    ({ at' 6#8 0x70#8 0x06#8 with outLog := [9#8] } : State).Inv ∧
    ∃ t, step { at' 6#8 0x70#8 0x06#8 with outLog := [9#8] } = .next t := by
  refine ⟨?_, _, rfl⟩
  simp only [State.Inv]; decide

theorem test_witness_SchedulesKeepInvariant : (bare (at' 6#8 0x70#8 0xF1#8)).Inv := by
  simp only [State.Inv]; decide

/-- 0xF0 and 0x1F0 with a channel; 0xEF, 0xF1 and no channel. -/
theorem test_witness_MemReadContract :
    (State.reset.ioAttached = true ∧ 0xF0 % 256 = 0xF0 ∧ 0x1F0 % 256 = 0xF0 ∧ State.reset.inQ = []) ∧
    (fed State.reset [1#8]).inQ = 1#8 :: [] ∧
    ¬(State.reset.ioAttached = true ∧ 0xEF % 256 = 0xF0) ∧ ¬(State.reset.ioAttached = true ∧ 0xF1 % 256 = 0xF0) ∧
    ¬((bare State.reset).ioAttached = true ∧ 0xF0 % 256 = 0xF0) := by decide

/-- 0xF1 and 0x1F1 with a channel; 0xF0, 0xF2 and no channel. -/
theorem test_witness_MemWriteContract :
    (State.reset.ioAttached = true ∧ 0xF1 % 256 = 0xF1 ∧ 0x1F1 % 256 = 0xF1) ∧
    ¬(State.reset.ioAttached = true ∧ 0xF0 % 256 = 0xF1) ∧ ¬(State.reset.ioAttached = true ∧ 0xF2 % 256 = 0xF1) ∧
    ¬((bare State.reset).ioAttached = true ∧ 0xF1 % 256 = 0xF1) := by decide

theorem test_witness_AddressesAreMasked : (at' 0xFF#8 0x50#8 0x09#8).pc = 0xFF#8 := by decide

theorem test_witness_WithoutChannelThereAreNoPorts :
    (bare (fed (at' 0xF0#8 1#8 2#8) [3#8])).ioAttached = false := by decide

theorem test_witness_FetchThroughTheInputPort :
    State.reset.ioAttached = true ∧ (at' 0xF0#8 1#8 2#8).pc = 0xF0#8 ∧ (at' 0xEF#8 1#8 2#8).pc = 0xEF#8 ∧
    (at' 0xEE#8 1#8 2#8).pc ≠ 0xEF#8 ∧ (at' 0xF1#8 1#8 2#8).pc ≠ 0xF0#8 := by decide

/-- A STR to 0xF0 and an LDR from 0xF1, the port addresses in their plain direction. -/
theorem test_witness_BuildsAgreeAwayFromThePorts :
    (Fetches (at' 0xEE#8 0x70#8 0xF0#8) 0x70#8 0xF0#8 (at' 0xEE#8 0x70#8 0xF0#8) ∧
      FetchAvoidsPort (at' 0xEE#8 0x70#8 0xF0#8)) ∧
    decode 0x70#8 0xF0#8 = .str .r0 0xF0#8 ∧ (∀ rd, Instr.str .r0 0xF0#8 ≠ .ldr rd 0xF0#8) ∧
    Instr.str .r0 0xF0#8 ≠ .wait ∧ (∀ rs, Instr.str .r0 0xF0#8 ≠ .str rs 0xF1#8) ∧
    (∀ rd, Instr.ldr .r0 0xF1#8 ≠ .ldr rd 0xF0#8) := by
  simp only [Fetches, FetchAvoidsPort]
  refine ⟨by decide, by decide, by simp, by simp, by simp, by simp⟩

/-- One memory stored in two orders. -/
theorem test_witness_CanonicalMemoriesAreEqual :
    (Memory.store (Memory.store [] 4 2#8) 9 1#8).wf = true ∧ (Memory.store (Memory.store [] 9 1#8) 4 2#8).wf = true ∧
    ∀ a, Memory.cell (Memory.store (Memory.store [] 4 2#8) 9 1#8) a =
      Memory.cell (Memory.store (Memory.store [] 9 1#8) 4 2#8) a := by
  have h : Memory.store (Memory.store [] 4 2#8) 9 1#8 = Memory.store (Memory.store [] 9 1#8) 4 2#8 := by decide
  exact ⟨by decide, by decide, fun a => by rw [h]⟩

theorem test_witness_LoadProgramWritesInOrder : ([1#8, 2#8, 3#8] : List Byte).length ≤ (3#8 : Byte).toNat := by decide

/-- An image of 256 bytes with its last address, and the port address in both builds. -/
theorem test_witness_LoadedImageLiesAtZero :
    (List.replicate 256 (1#8 : Byte)).length ≤ 256 ∧ (0xFF#8 : Byte).toNat < (List.replicate 256 (1#8 : Byte)).length ∧
    writesPort State.reset 0xFF#8 = false ∧ writesPort State.reset 0xF1#8 = true ∧
    writesPort (bare State.reset) 0xF1#8 = false := by
  simp only [List.length_replicate]; decide

/-- Codes 0 and 255. -/
theorem test_witness_FeedInputAppends : ∀ ch ∈ [Char.ofNat 0, Char.ofNat 255], ch.toNat ≤ 255 := by simp

/-- A machine one HLT away from its end, and one that has ended. -/
theorem test_witness_RunEndsExactlyWhenHalted :
    RunReturns (at' 6#8 0xF0#8 0#8) { at' 6#8 0xF0#8 0#8 with halted := true, pc := 8#8 } ∧
    (stopped State.reset).halted = true := ⟨⟨1, rfl, rfl⟩, rfl⟩

theorem test_witness_PlacedWordRunsNext : (0xFF#8 : Byte) ≠ State.reset.pc ∧ 0xFF#8 ≠ State.reset.pc + 1#8 := by
  decide

/-- A program of all ten mnemonics has a listing. -/
theorem test_witness_AssemblerInvertsListing :
    (∀ i ∈ [Instr.nop, .mov .r0 .r1, .add .r1 .r2, .sub .r2 .r3, .ldi .r3 0#8, .ldr .r0 255#8, .str .r1 10#8,
      .jmp 100#8, .wait, .hlt], i.hasMnemonic = true) ∧
    (listing [.ldi .r3 0#8, .jmp 255#8]).isSome = true := by decide

/-- Two instruction lines with a comment and a blank line between them; the last one has index 1. -/
theorem test_witness_AssembledLineIsTwoBytes :
    assemble "LDI R0, 5\n; comment\n\nHLT".toList = .ok [0x50#8, 0x05#8, 0xF0#8, 0x00#8] ∧
    1 < (instrLines "LDI R0, 5\n; comment\n\nHLT".toList).length := by decide

/-- B13-14: the second line fails, and with it the text. -/
theorem test_witness_AssemblyIsAllOrNothing :
    "FOO".toList ∈ instrLines "LDI R0, 5\nFOO".toList ∧ lineInstr "FOO".toList = .error (.unknownMnemonic "FOO".toList) :=
  ⟨by decide, by decide⟩

end Sys2Proof.Tests
end

section
/-! Several steps and `run` (70 R134, R135): the rules of `stepN` and `runFor`, and where a run ends (00_scope R12).
The key fact is `runFor_eq_stepN`: a halted machine keeps its state when stepped (decision D3, log 3), so `run`'s test of
`halted` before each step makes no difference to the state reached. -/

namespace Sys2Proof.Machine

/-- `step` is total (60 R127). -/
theorem exists_step_eq_next (s : State) : ∃ t, step s = .next t := by
  cases h : s.halted with
  | true => exact ⟨s, step_halted s h⟩
  | false => exact ⟨_, step_running s h⟩

theorem stepN_succ_of_step {s t : State} (h : step s = .next t) (n : Nat) : stepN (n + 1) s = stepN n t := by
  simp only [stepN, h]

theorem stepN_of_halted {s : State} (h : s.halted = true) (n : Nat) : stepN n s = .next s := by
  induction n with
  | zero => rfl
  | succ n ih => rw [stepN_succ_of_step (step_halted s h), ih]

theorem stepN_add {m : Nat} {s t : State} (h : stepN m s = .next t) (n : Nat) : stepN (m + n) s = stepN n t := by
  induction m generalizing s with
  | zero =>
    cases h
    rw [Nat.zero_add]
  | succ m ih =>
    obtain ⟨u, hu⟩ := exists_step_eq_next s
    rw [stepN_succ_of_step hu] at h
    rw [Nat.succ_add, stepN_succ_of_step hu, ih h]

/-- Once `m` steps have halted the machine, any number of further steps is the same run. -/
theorem stepN_add_of_halted {m : Nat} {s t : State} (h : stepN m s = .next t) (ht : t.halted = true) (n : Nat) :
    stepN (m + n) s = .next t := by
  rw [stepN_add h, stepN_of_halted ht]

theorem runFor_of_halted {s : State} (h : s.halted = true) (n : Nat) : runFor n s = .next s := by
  cases n with
  | zero => rfl
  | succ n => simp [runFor, h]

theorem runFor_succ_of_step {s t : State} (hs : s.halted = false) (h : step s = .next t) (n : Nat) :
    runFor (n + 1) s = runFor n t := by
  simp [runFor, hs, h]

theorem runFor_eq_stepN (n : Nat) (s : State) : runFor n s = stepN n s := by
  induction n generalizing s with
  | zero => rfl
  | succ n ih =>
    cases hs : s.halted with
    | true => rw [runFor_of_halted hs, stepN_of_halted hs]
    | false =>
      obtain ⟨t, ht⟩ := exists_step_eq_next s
      rw [runFor_succ_of_step hs ht, stepN_succ_of_step ht, ih]

theorem runReturns_iff_stepN (s t : State) : RunReturns s t ↔ ∃ n, stepN n s = .next t ∧ t.halted = true := by
  simp only [RunReturns, runFor_eq_stepN]

theorem RunReturns.halted {s t : State} (h : RunReturns s t) : t.halted = true := by
  obtain ⟨_, _, ht⟩ := h
  exact ht

/-- Two runs that return agree: padded with idle steps to the same length, they are one run. -/
theorem RunReturns.unique {s t t' : State} (h : RunReturns s t) (h' : RunReturns s t') : t = t' := by
  obtain ⟨m, hm, ht⟩ := (runReturns_iff_stepN s t).mp h
  obtain ⟨n, hn, ht'⟩ := (runReturns_iff_stepN s t').mp h'
  have hpad : stepN (m + n) s = .next t := stepN_add_of_halted hm ht n
  have hpad' : stepN (m + n) s = .next t' := Nat.add_comm n m ▸ stepN_add_of_halted hn ht' m
  rw [hpad] at hpad'
  exact Host.Outcome.next.inj hpad'

/-- Settles O54: `run` and as many plain steps reach the same state (`runFor_eq_stepN`), and a halted state is final. -/
theorem runEndsExactlyWhenHalted : Obligations.RunEndsExactlyWhenHalted :=
  ⟨runReturns_iff_stepN, fun _ _ _ => RunReturns.unique, fun _ _ n h => stepN_of_halted h.halted n,
    fun _ h n => runFor_of_halted h n⟩

end Sys2Proof.Machine
end

section
/-! The sixteen meanings as equations in which every field of the next state can be read off, the frame of the bus
write, and what each instruction leaves unchanged (10_state R15, R20, R23, R27). -/

namespace Sys2Proof.Machine

/-- A read changes the input queue alone. -/
theorem memRead_snd_eq (a : Byte) (s : State) : (memRead a s).2 = { s with inQ := (memRead a s).2.inQ } := by
  obtain ⟨k, _, h⟩ := memRead_state a s
  rw [h]

/-- A write changes the memory array and the output log alone. -/
theorem memWrite_eq (a v : Byte) (s : State) :
    memWrite a v s = { s with mem := (memWrite a v s).mem, outLog := (memWrite a v s).outLog } := by
  rcases memWrite_cases a v s with ⟨_, h⟩ | ⟨_, h⟩ <;> rw [h] <;> rfl

@[simp] theorem memWrite_regs (a v : Byte) (s : State) : (memWrite a v s).regs = s.regs := by
  rw [memWrite_eq]
@[simp] theorem memWrite_pc (a v : Byte) (s : State) : (memWrite a v s).pc = s.pc := by
  rw [memWrite_eq]
@[simp] theorem memWrite_z (a v : Byte) (s : State) : (memWrite a v s).z = s.z := by
  rw [memWrite_eq]
@[simp] theorem memWrite_c (a v : Byte) (s : State) : (memWrite a v s).c = s.c := by
  rw [memWrite_eq]
@[simp] theorem memWrite_halted (a v : Byte) (s : State) : (memWrite a v s).halted = s.halted := by
  rw [memWrite_eq]
@[simp] theorem memWrite_inQ (a v : Byte) (s : State) : (memWrite a v s).inQ = s.inQ := by
  rw [memWrite_eq]
@[simp] theorem memWrite_ioAttached (a v : Byte) (s : State) : (memWrite a v s).ioAttached = s.ioAttached := by
  rw [memWrite_eq]
@[simp] theorem memWrite_reg (a v : Byte) (s : State) (r : Reg) : (memWrite a v s).reg r = s.reg r := by
  rw [memWrite_eq]; rfl

@[simp] theorem effect_nop (s : State) : effect .nop s = s := rfl
@[simp] theorem effect_mov (rd rs : Reg) (s : State) : effect (.mov rd rs) s = s.setReg rd (s.reg rs) := rfl
@[simp] theorem effect_unassigned2 (s : State) : effect .unassigned2 s = s := rfl
@[simp] theorem effect_add (rd rs : Reg) (s : State) : effect (.add rd rs) s =
    (s.setC (addCarry (s.reg rd) (s.reg rs))).setRegZ rd (sumByte (s.reg rd) (s.reg rs)) := rfl
@[simp] theorem effect_sub (rd rs : Reg) (s : State) : effect (.sub rd rs) s =
    (s.setC (subBorrow (s.reg rd) (s.reg rs))).setRegZ rd (differenceByte (s.reg rd) (s.reg rs)) := rfl
@[simp] theorem effect_ldi (rd : Reg) (imm : Byte) (s : State) : effect (.ldi rd imm) s = s.setRegZ rd imm := rfl
@[simp] theorem effect_ldr (rd : Reg) (addr : Byte) (s : State) : effect (.ldr rd addr) s =
    ({ s with inQ := (memRead addr s).2.inQ } : State).setRegZ rd (memRead addr s).1 :=
  congrArg (State.setRegZ · rd (memRead addr s).1) (memRead_snd_eq addr s)
@[simp] theorem effect_str (rs : Reg) (addr : Byte) (s : State) :
    effect (.str rs addr) s = memWrite addr (s.reg rs) s := rfl
@[simp] theorem effect_jmp (addr : Byte) (s : State) : effect (.jmp addr) s = s.setPc addr := rfl
@[simp] theorem effect_unassigned9 (s : State) : effect .unassigned9 s = s := rfl
@[simp] theorem effect_unassignedA (s : State) : effect .unassignedA s = s := rfl
@[simp] theorem effect_unassignedB (s : State) : effect .unassignedB s = s := rfl
@[simp] theorem effect_unassignedC (s : State) : effect .unassignedC s = s := rfl
@[simp] theorem effect_unassignedD (s : State) : effect .unassignedD s = s := rfl
@[simp] theorem effect_wait (s : State) :
    effect .wait s = s.setPc (if inEmpty s = true then s.pc - 2#8 else s.pc) := by
  change (if inEmpty s = true then s.rewind else s) = _
  split <;> rfl
@[simp] theorem effect_hlt (s : State) : effect .hlt s = s.halt := rfl

theorem effect_ioAttached (i : Instr) (s : State) : (effect i s).ioAttached = s.ioAttached := by
  cases i with
  | str | ldr | wait => simp
  | _ => rfl

/-- Memory array and output log change by a bus write or not at all: STR is the one instruction that performs one. -/
theorem effect_mem_outLog (i : Instr) (s : State) :
    (∃ rs addr, i = .str rs addr ∧ effect i s = memWrite addr (s.reg rs) s) ∨
    ((effect i s).mem = s.mem ∧ (effect i s).outLog = s.outLog) := by
  cases i with
  | str rs addr => exact .inl ⟨rs, addr, rfl, rfl⟩
  | ldr | wait => simp
  | _ => exact .inr ⟨rfl, rfl⟩

theorem effect_mem_outLog_of_ne_str {i : Instr} (s : State) (h : ∀ rs addr, i ≠ .str rs addr) :
    (effect i s).mem = s.mem ∧ (effect i s).outLog = s.outLog := by
  rcases effect_mem_outLog i s with ⟨rs, addr, hi, _⟩ | hsame
  · exact absurd hi (h rs addr)
  · exact hsame

theorem effect_pc_of_ne {i : Instr} (s : State) (hjmp : ∀ addr, i ≠ .jmp addr) (hwait : i ≠ .wait) :
    (effect i s).pc = s.pc := by
  cases i with
  | jmp addr => exact absurd rfl (hjmp addr)
  | wait => exact absurd rfl hwait
  | str | ldr => simp
  | _ => rfl

theorem effect_inQ_of_ne_ldr {i : Instr} (s : State) (h : ∀ rd addr, i ≠ .ldr rd addr) :
    (effect i s).inQ = s.inQ := by
  cases i with
  | ldr rd addr => exact absurd rfl (h rd addr)
  | str | wait => simp
  | _ => rfl

theorem effect_halted_of_ne_hlt {i : Instr} (s : State) (h : i ≠ .hlt) : (effect i s).halted = s.halted := by
  cases i with
  | hlt => exact absurd rfl h
  | str | ldr | wait => simp
  | _ => rfl

/-- In a running machine, HLT alone sets the halted bit. -/
theorem effect_halted_iff {i : Instr} {s : State} (h : s.halted = false) :
    (effect i s).halted = true ↔ i = .hlt := by
  constructor
  · intro ht
    by_contra hi
    simp [effect_halted_of_ne_hlt s hi, h] at ht
  · rintro rfl
    rfl

end Sys2Proof.Machine
end

section
/-! One step as a function: fetch, pre-advance, decode and dispatch (10_state R19), with the state a fetched instruction
runs in written out. -/

namespace Sys2Proof.Machine

/-- The instruction that the two bytes at pc are. -/
def fetchedInstr (s : State) : Instr := decode (fetch s).byte1 (fetch s).byte2

/-- The state in which the fetched instruction runs: pc advanced, and the input queue as the fetch reads left it. -/
def dispatchState (s : State) : State := { s with pc := s.pc + 2#8, inQ := (fetch s).after.inQ }

/-- The state a step answers (`step_eq_nextState`). -/
def nextState (s : State) : State := if s.halted = true then s else effect (fetchedInstr s) (dispatchState s)

theorem fetch_after_advance (s : State) : (fetch s).after.advance = dispatchState s := by
  obtain ⟨k, _, h⟩ := fetch_after s
  rw [dispatchState, h]
  rfl

theorem nextState_of_halted {s : State} (h : s.halted = true) : nextState s = s := by simp [nextState, h]

theorem nextState_of_running {s : State} (h : s.halted = false) :
    nextState s = effect (fetchedInstr s) (dispatchState s) := by simp [nextState, h]

theorem step_eq_nextState (s : State) : step s = .next (nextState s) := by
  cases h : s.halted with
  | true => rw [step_halted s h, nextState_of_halted h]
  | false => rw [step_running s h, nextState_of_running h, fetch_after_advance, fetchedInstr]

theorem step_of_fetches {s after : State} {byte1 byte2 : Byte} (h : Fetches s byte1 byte2 after) :
    step s = .next (effect (decode byte1 byte2) { s with pc := s.pc + 2#8, inQ := after.inQ }) := by
  obtain ⟨hrun, hf⟩ := h
  rw [step_eq_nextState, nextState_of_running hrun, fetchedInstr, dispatchState, hf]

/-- The fetch takes input and changes nothing else. -/
theorem Fetches.after_eq {s after : State} {byte1 byte2 : Byte} (h : Fetches s byte1 byte2 after) :
    after = { s with inQ := after.inQ } := by
  obtain ⟨-, hf⟩ := h
  obtain ⟨k, -, hafter⟩ := fetch_after s
  rw [hf] at hafter
  obtain rfl : after = { s with inQ := s.inQ.drop k } := hafter
  rfl

theorem stepN_succ (n : Nat) (s : State) : stepN (n + 1) s = stepN n (nextState s) :=
  stepN_succ_of_step (step_eq_nextState s) n

end Sys2Proof.Machine
end

section
/-! Invariants packaged once: what every bus write keeps, every schedule of moves without a reset keeps (70 R138). -/

namespace Sys2Proof.Machine

/-- The property reads memory, log and build alone, and every bus write keeps it. -/
structure KeptByWrites (P : State → Prop) : Prop where
  congr : ∀ {s t : State}, t.mem = s.mem → t.outLog = s.outLog → t.ioAttached = s.ioAttached → P s → P t
  write : ∀ (a v : Byte) {s : State}, P s → P (memWrite a v s)

/-- `load_program` is a row of bus writes, so it keeps what each of them keeps. -/
theorem loadFrom_keeps {P : State → Prop} (hwrite : ∀ (a v : Byte) {s : State}, P s → P (memWrite a v s))
    (bytes : List Byte) (i : Nat) {s : State} (h : P s) : P (loadFrom i bytes s) := by
  induction bytes generalizing i s with
  | nil => exact h
  | cons b bs ih => exact ih (i + 1) (hwrite _ _ h)

theorem KeptByWrites.effect {P : State → Prop} (hP : KeptByWrites P) (i : Instr) {s : State} (h : P s) :
    P (effect i s) := by
  rcases effect_mem_outLog i s with ⟨rs, addr, _, he⟩ | ⟨hmem, hlog⟩
  · rw [he]
    exact hP.write addr _ h
  · exact hP.congr hmem hlog (effect_ioAttached i s) h

theorem KeptByWrites.nextState {P : State → Prop} (hP : KeptByWrites P) {s : State} (h : P s) :
    P (nextState s) := by
  cases hh : s.halted with
  | true => rwa [nextState_of_halted hh]
  | false =>
    rw [nextState_of_running hh]
    exact hP.effect _ (hP.congr (s := s) rfl rfl rfl h)

theorem KeptByWrites.applyMove {P : State → Prop} (hP : KeptByWrites P) (m : Move)
    (hreset : m = .reset → ∀ s, P s → P (hostReset s)) {s : State} (h : P s) :
    ∃ t, applyMove m s = .next t ∧ P t := by
  cases m with
  | step => exact ⟨_, step_eq_nextState s, hP.nextState h⟩
  | feed bytes => exact ⟨_, rfl, hP.congr (s := s) rfl rfl rfl h⟩
  | load bytes => exact ⟨_, rfl, loadFrom_keeps hP.write bytes 0 h⟩
  | reset => exact ⟨_, rfl, hreset rfl s h⟩

/-- A property that each move of a schedule keeps holds where the schedule ends. -/
theorem exists_applyMoves_next {P : State → Prop} (ms : List Move)
    (hmove : ∀ m ∈ ms, ∀ s, P s → ∃ t, applyMove m s = .next t ∧ P t) {s : State} (h : P s) :
    ∃ t, applyMoves ms s = .next t ∧ P t := by
  induction ms generalizing s with
  | nil => exact ⟨s, rfl, h⟩
  | cons m ms ih =>
    obtain ⟨u, hu, hPu⟩ := hmove m (by simp) s h
    obtain ⟨t, ht, hPt⟩ := ih (fun m' hm' => hmove m' (by simp [hm'])) hPu
    exact ⟨t, by simp only [applyMoves, hu, ht], hPt⟩

theorem KeptByWrites.applyMoves {P : State → Prop} (hP : KeptByWrites P) (ms : List Move)
    (hreset : .reset ∈ ms → ∀ s, P s → P (hostReset s)) {s : State} (h : P s) :
    ∃ t, applyMoves ms s = .next t ∧ P t :=
  exists_applyMoves_next ms (fun m hm _ hs => hP.applyMove m (fun hr => hreset (hr ▸ hm)) hs) h

theorem keptByWrites_ioAttached (io : Bool) : KeptByWrites (fun s => s.ioAttached = io) where
  congr := fun _ _ hio h => hio.trans h
  write := fun a v s h => (memWrite_ioAttached a v s).trans h

/-- Without a channel no write is redirected, so the log stays empty. -/
theorem keptByWrites_inv : KeptByWrites State.Inv where
  congr := by
    intro s t hmem hlog hio h
    simpa only [State.Inv, hmem, hlog, hio] using h
  write := by
    rintro a v s ⟨hwf, hlog⟩
    refine ⟨memWrite_wf a v s hwf, fun hio => ?_⟩
    rw [memWrite_ioAttached] at hio
    have hplain : writesPort s a = false := by simp [writesPort, hio]
    rw [memWrite_plain a v s hplain]
    exact hlog hio

/-- With a channel a write to the output port is redirected, so no write reaches the cell under it. -/
theorem keptByWrites_outPortCell (b : Byte) :
    KeptByWrites (fun s => s.ioAttached = true ∧ s.cell Config.outPort = b) where
  congr := by
    rintro s t hmem - hio ⟨hs, hb⟩
    exact ⟨hio.trans hs, by rwa [State.cell, hmem]⟩
  write := by
    rintro a v s ⟨hs, hb⟩
    refine ⟨(memWrite_ioAttached a v s).trans hs, ?_⟩
    rcases memWrite_cases a v s with ⟨hplain, hw⟩ | ⟨_, hw⟩
    · have hne : Config.outPort ≠ a := by
        rintro rfl
        simp [writesPort, hs] at hplain
      rw [hw, State.cell_setCell, if_neg hne, hb]
    · rw [hw, State.emit_cell, hb]

theorem resetOf_inv (io : Bool) : (State.resetOf io).Inv := ⟨State.resetOf_wf io, fun _ => rfl⟩

/-- Settles O42: a step changes memory and log by bus writes alone, and these keep the invariant. -/
theorem stepKeepsInvariant : Obligations.StepKeepsInvariant := by
  intro s t hs hst
  rw [step_eq_nextState] at hst
  cases hst
  exact keptByWrites_inv.nextState hs

/-- Settles O43: the invariant is kept by bus writes and holds again after a reset. -/
theorem schedulesKeepInvariant : Obligations.SchedulesKeepInvariant := fun ms _ hs =>
  keptByWrites_inv.applyMoves ms (fun _ u _ => resetOf_inv u.ioAttached) hs

/-- Settles O40: no bus write reaches the cell under the output port. -/
theorem outputPortCellIsNeverWritten : Obligations.OutputPortCellIsNeverWritten := by
  intro ms s hio hms
  obtain ⟨t, ht, -, hcell⟩ :=
    (keptByWrites_outPortCell (s.cell Config.outPort)).applyMoves ms (fun hr => absurd hr hms) ⟨hio, rfl⟩
  exact ⟨t, ht, hcell⟩

/-- Settles O41: a bus write keeps the build, and a reset rebuilds the machine in the same one. -/
theorem buildNeverChanges : Obligations.BuildNeverChanges := fun ms s =>
  (keptByWrites_ioAttached s.ioAttached).applyMoves ms (fun _ _ hu => hu) rfl

/-- Settles O3: reset lists no cell and has emitted nothing. -/
theorem resetMeetsInvariant : Obligations.ResetMeetsInvariant := ⟨resetOf_inv _, resetOf_inv⟩

end Sys2Proof.Machine
end

section
/-! Two runs side by side: a relation that hides some part of the state is kept by every number of steps once each
instruction keeps it. The key fact is `fetch_of_sameReads`: what a bus read gives and takes depends on the queue, the
build and the cells no port hides, so two states that agree there fetch the same instruction. -/

namespace Sys2Proof.Machine

/-- Everything a bus read can see is the same: queue, build, and every cell that is not under a redirected address. -/
structure SameReads (s t : State) : Prop where
  ioAttached : t.ioAttached = s.ioAttached
  inQ : t.inQ = s.inQ
  cell : ∀ a, readsPort s a = false → t.cell a = s.cell a

theorem readsPort_congr {s t : State} (h : t.ioAttached = s.ioAttached) (a : Byte) : readsPort t a = readsPort s a := by
  simp [readsPort, h]

theorem memRead_of_sameReads {s t : State} (h : SameReads s t) (a : Byte) :
    memRead a t = ((memRead a s).1, { t with inQ := (memRead a s).2.inQ }) := by
  have hp : readsPort t a = readsPort s a := readsPort_congr h.ioAttached a
  rcases memRead_cases a s with ⟨hs, hr⟩ | ⟨hs, hq, hr⟩ | ⟨b, q, hs, hq, hr⟩
  · rw [memRead_plain a t (hp.trans hs), hr, h.cell a hs, ← h.inQ]
  · rw [memRead_empty a t (hp.trans hs) (h.inQ.trans hq), hr, ← h.inQ]
  · rw [memRead_pop a t b q (hp.trans hs) (h.inQ.trans hq), hr]

/-- In two states of one build a write is redirected in both or in neither. -/
theorem memWrite_both {R : State → State → Prop} {s t : State} {a v : Byte} (hio : t.ioAttached = s.ioAttached)
    (hstore : R (s.setCell a v) (t.setCell a v)) (hemit : R (s.emit v) (t.emit v)) :
    R (memWrite a v s) (memWrite a v t) := by
  have hp : writesPort t a = writesPort s a := by simp [writesPort, hio]
  rcases memWrite_cases a v s with ⟨hs, hw⟩ | ⟨hs, hw⟩
  · rwa [hw, memWrite_plain a v t (hp.trans hs)]
  · rwa [hw, memWrite_emit a v t (hp.trans hs)]

theorem SameReads.after_memRead {s t : State} (h : SameReads s t) (a : Byte) :
    SameReads (memRead a s).2 (memRead a t).2 := by
  rw [memRead_of_sameReads h a, memRead_snd_eq a s]
  exact ⟨h.ioAttached, rfl, h.cell⟩

theorem fetch_of_sameReads {s t : State} (h : SameReads s t) (hpc : t.pc = s.pc) :
    fetch t = ⟨(fetch s).byte1, (fetch s).byte2, { t with inQ := (fetch s).after.inQ }⟩ := by
  have h1 := memRead_of_sameReads h s.pc
  have h2 := memRead_of_sameReads (h.after_memRead s.pc) (s.pc + 1#8)
  simp only [fetch, hpc, h2]
  simp only [h1, hpc]

/-- A relation between two runs: related states run alike, and dispatch and every instruction keep it. -/
structure KeptByBothRuns (R : State → State → Prop) : Prop where
  halted : ∀ {s t : State}, R s t → t.halted = s.halted
  pc : ∀ {s t : State}, R s t → t.pc = s.pc
  sameReads : ∀ {s t : State}, R s t → SameReads s t
  moved : ∀ {s t : State} (pc : Byte) (q : List Byte), R s t →
    R { s with pc := pc, inQ := q } { t with pc := pc, inQ := q }
  effect : ∀ (i : Instr) {s t : State}, R s t → R (effect i s) (effect i t)

theorem KeptByBothRuns.nextState {R : State → State → Prop} (hR : KeptByBothRuns R) {s t : State} (h : R s t) :
    R (nextState s) (nextState t) := by
  cases hs : s.halted with
  | true => rwa [nextState_of_halted hs, nextState_of_halted ((hR.halted h).trans hs)]
  | false =>
    have hfetch := fetch_of_sameReads (hR.sameReads h) (hR.pc h)
    have hi : fetchedInstr t = fetchedInstr s := by rw [fetchedInstr, hfetch, fetchedInstr]
    have hd : dispatchState t = { t with pc := s.pc + 2#8, inQ := (fetch s).after.inQ } := by
      rw [dispatchState, hfetch, hR.pc h]
    rw [nextState_of_running hs, nextState_of_running ((hR.halted h).trans hs), hi, hd]
    exact hR.effect _ (hR.moved _ _ h)

theorem KeptByBothRuns.stepN {R : State → State → Prop} (hR : KeptByBothRuns R) (n : Nat) {s t : State}
    (h : R s t) : ∃ s' t', stepN n s = .next s' ∧ stepN n t = .next t' ∧ R s' t' := by
  induction n generalizing s t with
  | zero => exact ⟨s, t, rfl, rfl, h⟩
  | succ n ih =>
    rw [stepN_succ, stepN_succ]
    exact ih (hR.nextState h)

end Sys2Proof.Machine
end

section
/-! The flags (10_state R24), the output log (R32) and the cell under the input port (R34): what no
instruction reads. -/

namespace Sys2Proof.Machine

theorem EqualButFlags.sameReads {s t : State} (h : EqualButFlags s t) : SameReads s t := by
  rw [← h]
  exact ⟨rfl, rfl, fun _ _ => rfl⟩

theorem EqualButFlags.effect (i : Instr) {s t : State} (h : EqualButFlags s t) :
    EqualButFlags (effect i s) (effect i t) := by
  have hreads := h.sameReads
  rw [← h] at hreads ⊢
  cases i with
  | ldr rd addr =>
    rw [effect_ldr, effect_ldr, memRead_of_sameReads hreads]
    rfl
  | str rs addr =>
    exact memWrite_both hreads.ioAttached rfl rfl
  | wait =>
    rw [effect_wait, effect_wait]
    rfl
  | _ => exact rfl

theorem keptByBothRuns_equalButFlags : KeptByBothRuns EqualButFlags where
  halted := fun h => by rw [← h]
  pc := fun h => by rw [← h]
  sameReads := EqualButFlags.sameReads
  moved := fun pc q h => by rw [← h]; exact rfl
  effect := EqualButFlags.effect

/-- Settles O36: the relation is kept by both runs of every instruction. -/
theorem flagsNeverSteerTheMachine : Obligations.FlagsNeverSteerTheMachine := fun n _ _ h =>
  keptByBothRuns_equalButFlags.stepN n h

/-- `t` is `s` with more output in front of its log. -/
def EarlierOutput (earlier : List Byte) (s t : State) : Prop := { s with outLog := earlier ++ s.outLog } = t

theorem EarlierOutput.sameReads {earlier : List Byte} {s t : State} (h : EarlierOutput earlier s t) :
    SameReads s t := by
  rw [← h]
  exact ⟨rfl, rfl, fun _ _ => rfl⟩

theorem EarlierOutput.emit {earlier : List Byte} {s t : State} (h : EarlierOutput earlier s t) (v : Byte) :
    EarlierOutput earlier (s.emit v) (t.emit v) := by
  rw [← h]
  simp [EarlierOutput, State.emit]

theorem EarlierOutput.effect {earlier : List Byte} (i : Instr) {s t : State} (h : EarlierOutput earlier s t) :
    EarlierOutput earlier (effect i s) (effect i t) := by
  have hreads := h.sameReads
  rw [← h] at hreads ⊢
  cases i with
  | ldr rd addr =>
    rw [effect_ldr, effect_ldr, memRead_of_sameReads hreads]
    rfl
  | str rs addr =>
    exact memWrite_both hreads.ioAttached rfl (EarlierOutput.emit rfl (s.reg rs))
  | wait =>
    rw [effect_wait, effect_wait]
    rfl
  | _ => exact rfl

theorem keptByBothRuns_earlierOutput (earlier : List Byte) : KeptByBothRuns (EarlierOutput earlier) where
  halted := fun h => by rw [← h]
  pc := fun h => by rw [← h]
  sameReads := EarlierOutput.sameReads
  moved := fun pc q h => by rw [← h]; exact rfl
  effect := EarlierOutput.effect

/-- Settles O37: the run from an empty log shows what is emitted, and every other log only stands in front of it. -/
theorem outputLogIsAppendOnlyAndUnobserved : Obligations.OutputLogIsAppendOnlyAndUnobserved := by
  intro n s
  obtain ⟨t, -, ht, -, -⟩ :=
    (keptByBothRuns_earlierOutput []).stepN n (s := { s with outLog := [] }) (t := { s with outLog := [] }) rfl
  refine ⟨t, t.outLog, fun log => ?_⟩
  have hstart : EarlierOutput log { s with outLog := [] } { s with outLog := log } := by simp [EarlierOutput]
  obtain ⟨t₀, t', ht₀, ht', hlog⟩ := (keptByBothRuns_earlierOutput log).stepN n hstart
  cases ht.symm.trans ht₀
  rw [ht', ← hlog]

/-- With a channel, and equal but for the cell under the input port. -/
def EqualButInputCell (s t : State) : Prop := s.ioAttached = true ∧ EqualButCell Config.inPort s t

theorem EqualButInputCell.sameReads {s t : State} (h : EqualButInputCell s t) : SameReads s t := by
  obtain ⟨hio, heq, hcell⟩ := h
  refine ⟨?_, ?_, fun a ha => hcell a ?_⟩
  · rw [← heq]
  · rw [← heq]
  · rintro rfl
    simp [readsPort, hio] at ha

/-- A store changes the same cell in both states, whatever the cell that may differ. -/
theorem SameCellsBut.setCell {a : Byte} {s t : State} (h : SameCellsBut a s t) (b v : Byte) :
    SameCellsBut a (s.setCell b v) (t.setCell b v) := by
  intro d hd
  rw [State.cell_setCell, State.cell_setCell, h d hd]

theorem EqualButInputCell.effect (i : Instr) {s t : State} (h : EqualButInputCell s t) :
    EqualButInputCell (effect i s) (effect i t) := by
  have hreads := h.sameReads
  obtain ⟨hio, heq, hcell⟩ := h
  refine ⟨(effect_ioAttached i s).trans hio, ?_⟩
  rw [← heq] at hreads ⊢
  cases i with
  | ldr rd addr =>
    rw [effect_ldr, effect_ldr, memRead_of_sameReads hreads]
    exact ⟨rfl, hcell⟩
  | str rs addr =>
    exact memWrite_both hreads.ioAttached ⟨rfl, SameCellsBut.setCell hcell addr (s.reg rs)⟩ ⟨rfl, hcell⟩
  | wait =>
    rw [effect_wait, effect_wait]
    exact ⟨rfl, hcell⟩
  | _ => exact ⟨rfl, hcell⟩

theorem keptByBothRuns_equalButInputCell : KeptByBothRuns EqualButInputCell where
  halted := fun ⟨_, heq, _⟩ => by rw [← heq]
  pc := fun ⟨_, heq, _⟩ => by rw [← heq]
  sameReads := EqualButInputCell.sameReads
  moved := fun pc q ⟨hio, heq, hcell⟩ => ⟨hio, by rw [← heq], hcell⟩
  effect := EqualButInputCell.effect

/-- Settles O39: every read of the differing address is redirected, so no instruction sees it. -/
theorem inputPortCellIsInert : Obligations.InputPortCellIsInert := by
  intro n s t hio h
  obtain ⟨s', t', hs, ht, -, heq⟩ := keptByBothRuns_equalButInputCell.stepN n ⟨hio, h⟩
  exact ⟨s', t', hs, ht, heq⟩

end Sys2Proof.Machine
end

section
/-! The canonical list form of memory (log 2): it is determined by the bytes it holds. -/

namespace Sys2Proof.Machine

theorem Memory.wfFrom_cons {lo k : Nat} {v : Byte} {m : Memory} :
    Memory.wfFrom lo ((k, v) :: m) = true ↔
      lo ≤ k ∧ k < Config.memSize ∧ v ≠ Config.memReset ∧ Memory.wfFrom (k + 1) m = true := by
  simp [Memory.wfFrom, and_assoc]

theorem Memory.cell_cons_self (k : Nat) (v : Byte) (m : Memory) : Memory.cell ((k, v) :: m) k = v := by
  simp [Memory.cell]

theorem Memory.cell_cons_of_ne {k a : Nat} (h : k ≠ a) (v : Byte) (m : Memory) :
    Memory.cell ((k, v) :: m) a = m.cell a := by
  simp [Memory.cell, h]

/-- Nothing is listed below the first address, nor at 256 and above. -/
theorem Memory.cell_eq_memReset {m : Memory} {lo a : Nat} (h : m.wfFrom lo = true)
    (ha : a < lo ∨ Config.memSize ≤ a) : m.cell a = Config.memReset := by
  induction m generalizing lo with
  | nil => rfl
  | cons e m ih =>
    obtain ⟨k, v⟩ := e
    obtain ⟨hlo, hk, -, hm⟩ := Memory.wfFrom_cons.mp h
    rw [Memory.cell_cons_of_ne (by omega)]
    exact ih hm (by omega)

/-- The lowest address a canonical memory lists is not below that of another one with the same bytes. -/
theorem Memory.not_lt_head {m m' : Memory} {lo k k' : Nat} {v v' : Byte}
    (h : Memory.wfFrom lo ((k, v) :: m) = true) (h' : Memory.wfFrom lo ((k', v') :: m') = true)
    (hcell : ∀ a, Memory.cell ((k, v) :: m) a = Memory.cell ((k', v') :: m') a) : ¬ k < k' := by
  intro hlt
  obtain ⟨-, -, hv, -⟩ := Memory.wfFrom_cons.mp h
  obtain ⟨-, hk', hv', hm'⟩ := Memory.wfFrom_cons.mp h'
  have hfrom : Memory.wfFrom k' ((k', v') :: m') = true := Memory.wfFrom_cons.mpr ⟨le_rfl, hk', hv', hm'⟩
  have hk := hcell k
  rw [Memory.cell_cons_self, Memory.cell_eq_memReset hfrom (.inl hlt)] at hk
  exact hv hk

theorem Memory.eq_of_cell_eq {m m' : Memory} {lo : Nat} (h : m.wfFrom lo = true) (h' : m'.wfFrom lo = true)
    (hcell : ∀ a, m.cell a = m'.cell a) : m = m' := by
  induction m generalizing m' lo with
  | nil =>
    cases m' with
    | nil => rfl
    | cons e' m' =>
      obtain ⟨k', v'⟩ := e'
      obtain ⟨-, -, hv', -⟩ := Memory.wfFrom_cons.mp h'
      exact absurd ((hcell k').trans (Memory.cell_cons_self k' v' m')).symm hv'
  | cons e m ih =>
    obtain ⟨k, v⟩ := e
    obtain ⟨-, -, hv, hm⟩ := Memory.wfFrom_cons.mp h
    cases m' with
    | nil => exact absurd ((Memory.cell_cons_self k v m).symm.trans (hcell k)) hv
    | cons e' m' =>
      obtain ⟨k', v'⟩ := e'
      have hle := Memory.not_lt_head h h' hcell
      have hge := Memory.not_lt_head h' h (fun a => (hcell a).symm)
      obtain rfl : k = k' := by omega
      obtain ⟨-, -, -, hm'⟩ := Memory.wfFrom_cons.mp h'
      have hvv := hcell k
      rw [Memory.cell_cons_self, Memory.cell_cons_self] at hvv
      rw [hvv, ih hm hm' fun a => ?_]
      by_cases hka : k = a
      · have hlt : a < k + 1 := by omega
        rw [Memory.cell_eq_memReset hm (.inl hlt), Memory.cell_eq_memReset hm' (.inl hlt)]
      · rw [← Memory.cell_cons_of_ne hka v m, hcell a, Memory.cell_cons_of_ne hka]

/-- Storing back what is held keeps the canonical form, at addresses of 256 and above too: there nothing is listed. -/
theorem Memory.wf_store_cell {m : Memory} (a : Nat) (h : m.wf = true) : (m.store a (m.cell a)).wf = true := by
  by_cases ha : a < Config.memSize
  · exact Memory.wf_store m a _ h ha
  · rw [Memory.cell_eq_memReset h (.inr (Nat.le_of_not_lt ha)), Memory.store, if_pos rfl]
    exact Memory.wfFrom_erase m 0 a h

/-- Settles O50: canonical memories agree entry by entry, and storing back what is held changes no byte. -/
theorem canonicalMemoriesAreEqual : Obligations.CanonicalMemoriesAreEqual := by
  refine ⟨fun m m' h h' hcell => Memory.eq_of_cell_eq h h' hcell, fun m a h => ?_⟩
  refine Memory.eq_of_cell_eq (Memory.wf_store_cell a h) h fun b => ?_
  rw [Memory.cell_store]
  split
  · next hb => rw [hb]
  · rfl

end Sys2Proof.Machine
end

section
/-! The decoder on a byte1 given by its three fields (30_encoding R65 to R68). -/

namespace Sys2Proof

theorem Reg.toNat_lt (r : Reg) : r.toNat < 4 := by cases r <;> decide

theorem Reg.ofBits_toNat (r : Reg) : Reg.ofBits (BitVec.ofNat 2 r.toNat) = r := by cases r <;> decide

end Sys2Proof

namespace Sys2Proof.Machine

theorem opcode_lt_of_hasFields {byte1 : Byte} {op : Nat} {rd rs : Reg} (h : HasFields byte1 op rd rs) : op < 16 := by
  have hlt := byte1.isLt
  rw [h] at hlt
  omega

/-- The fields of byte1 are the only ones it has. -/
theorem fieldsOf_of_hasFields {byte1 : Byte} {op : Nat} {rd rs : Reg} (h : HasFields byte1 op rd rs) (byte2 : Byte) :
    fieldsOf byte1 byte2 = ⟨BitVec.ofNat 4 op, rd, rs, byte2⟩ := by
  have hrd := rd.toNat_lt
  have hrs := rs.toNat_lt
  have hopBits : byte1.extractLsb' 4 4 = BitVec.ofNat 4 op := by
    apply BitVec.eq_of_toNat_eq
    rw [BitVec.extractLsb'_toNat, BitVec.toNat_ofNat, h]
    omega
  have hrdBits : byte1.extractLsb' 2 2 = BitVec.ofNat 2 rd.toNat := by
    apply BitVec.eq_of_toNat_eq
    rw [BitVec.extractLsb'_toNat, BitVec.toNat_ofNat, h]
    omega
  have hrsBits : byte1.extractLsb' 0 2 = BitVec.ofNat 2 rs.toNat := by
    apply BitVec.eq_of_toNat_eq
    rw [BitVec.extractLsb'_toNat, BitVec.toNat_ofNat, h]
    omega
  rw [fieldsOf, hopBits, hrdBits, hrsBits, rd.ofBits_toNat, rs.ofBits_toNat]

theorem decode_of_hasFields {byte1 : Byte} {op : Nat} {rd rs : Reg} (h : HasFields byte1 op rd rs) (byte2 : Byte) :
    decode byte1 byte2 = Fields.instr ⟨BitVec.ofNat 4 op, rd, rs, byte2⟩ := by
  rw [decode, fieldsOf_of_hasFields h]

/-- The opcode alone selects the row of the table: encoding the row gives it back. -/
theorem opcode_encodeFields_decode {byte1 : Byte} {op : Nat} {rd rs : Reg} (h : HasFields byte1 op rd rs)
    (byte2 : Byte) : (encodeFields (decode byte1 byte2)).opcode = BitVec.ofNat 4 op := by
  have hop := opcode_lt_of_hasFields h
  rw [decode_of_hasFields h]
  interval_cases op <;> simp [Fields.instr, encodeFields]

/-- An instruction is decoded from its own opcode alone. -/
theorem eq_opcode_of_decode_eq {byte1 byte2 : Byte} {op : Nat} {rd rs : Reg} {i : Instr}
    (h : HasFields byte1 op rd rs) (hi : decode byte1 byte2 = i) : op = (encodeFields i).opcode.toNat := by
  have hop := opcode_lt_of_hasFields h
  rw [← hi, opcode_encodeFields_decode h, BitVec.toNat_ofNat]
  omega

theorem decode_jmp {byte1 : Byte} {rd rs : Reg} (h : HasFields byte1 8 rd rs) (byte2 : Byte) :
    decode byte1 byte2 = .jmp byte2 := by
  rw [decode_of_hasFields h]
  simp [Fields.instr]

theorem decode_wait {byte1 : Byte} {rd rs : Reg} (h : HasFields byte1 14 rd rs) (byte2 : Byte) :
    decode byte1 byte2 = .wait := by
  rw [decode_of_hasFields h]
  simp [Fields.instr]

end Sys2Proof.Machine
end

section
/-! One instruction and one step: reset values, pc, flags, who writes what, and the halted bit. -/

namespace Sys2Proof.Machine

/-- Settles O1: the values stand in `State.resetOf`. -/
theorem resetValues : Obligations.ResetValues :=
  ⟨fun r => by cases r <;> rfl, rfl, rfl, rfl, rfl, rfl⟩

/-- Where no cell is listed and nothing is queued, every read gives 0x00 and changes nothing, ports included. -/
theorem memRead_of_blank {s : State} (hmem : s.mem = []) (hq : s.inQ = []) (a : Byte) : memRead a s = (0x00#8, s) := by
  rcases memRead_cases a s with ⟨_, h⟩ | ⟨_, _, h⟩ | ⟨b, q, _, hq', _⟩
  · rw [h, State.cell, hmem]
    rfl
  · exact h
  · simp [hq] at hq'

/-- Settles O2: every fetch from blank memory gives the two zero bytes of a NOP. -/
theorem resetMemoryIsZero : Obligations.ResetMemoryIsZero := by
  refine ⟨fun _ _ => rfl, fun io a => ?_⟩
  have hread := memRead_of_blank (s := { State.resetOf io with pc := a }) rfl rfl
  have hfetches : Fetches { State.resetOf io with pc := a } 0x00#8 0x00#8 { State.resetOf io with pc := a } :=
    ⟨rfl, by simp only [fetch, hread]⟩
  rw [step_of_fetches hfetches]
  rfl

/-- Settles O4: the two reads are the fetch, and the state they leave is the one the instruction runs in. -/
theorem stepRunsTheDecodedInstruction : Obligations.StepRunsTheDecodedInstruction := by
  refine fun s => ⟨step_halted s, fun hrun byte1 byte2 s1 s2 h1 h2 => ?_⟩
  have hfetches : Fetches s byte1 byte2 s2 := ⟨hrun, by simp only [fetch, h1, h2]⟩
  rw [step_of_fetches hfetches, exec_eq, hfetches.after_eq]

/-- Settles O8: reading after writing (`State.reg_setReg_self`, `State.reg_setReg_other`) and the frame of `setReg`. -/
theorem registersAreIndependent : Obligations.RegistersAreIndependent := fun s r q v =>
  ⟨State.reg_setReg_self s r v, State.reg_setReg_other s r q v,
    rfl, ⟨rfl, rfl⟩, rfl, State.setReg_cell s r v, rfl, rfl, rfl⟩

/-- WAIT's test sees the queue as the fetch left it (decision D22). -/
theorem inEmpty_dispatch_of_fetches {s after : State} {byte1 byte2 : Byte} (h : Fetches s byte1 byte2 after) :
    inEmpty { s with pc := s.pc + 2#8, inQ := after.inQ } = inEmpty after := by
  rw [h.after_eq]
  rfl

/-- Settles O7: JMP and WAIT are told from the other rows by their opcode; WAIT tests the queue and the build, which
the pre-advance leaves as the fetch did. -/
theorem programCounterAfterStep : Obligations.ProgramCounterAfterStep := by
  refine ⟨fun s byte1 byte2 after op rd rs hf _ hop => ?_, fun s h => ⟨s, step_halted s h, rfl⟩⟩
  have hempty := inEmpty_dispatch_of_fetches hf
  refine ⟨_, step_of_fetches hf, ?_, ?_, ?_, fun hjmp hwait => ?_⟩
  · rintro rfl
    rw [decode_jmp hop, effect_jmp, State.setPc_pc]
  · rintro rfl he
    simp [decode_wait hop, hempty, he]
  · rintro rfl he
    simp [decode_wait hop, hempty, he]
  · exact effect_pc_of_ne _ (fun addr hi => hjmp (eq_opcode_of_decode_eq hop hi))
      (fun hi => hwait (eq_opcode_of_decode_eq hop hi))

theorem zeroFlag_eq_decide (v : Byte) : zeroFlag v = decide (v = 0x00#8) := by
  rw [Bool.eq_iff_iff, zeroFlag_iff, decide_eq_true_iff]

theorem addCarry_eq_decide (a b : Byte) : addCarry a b = decide (a.toNat + b.toNat > 255) := rfl

theorem subBorrow_eq_decide (a b : Byte) : subBorrow a b = decide (a.toNat < b.toNat) := by
  rw [Bool.eq_iff_iff, subBorrow_iff, decide_eq_true_iff]

/-- Settles O32: one row of R23's table per case. -/
theorem flagsWrittenByInstruction : Obligations.FlagsWrittenByInstruction := by
  intro i s
  refine ⟨effect i s, exec_eq i s, ?_⟩
  cases i with
  | add | sub | ldi | ldr => simp [zeroFlag_eq_decide, addCarry_eq_decide, subBorrow_eq_decide]
  | str | wait => simp [SameFlags]
  | _ => exact ⟨rfl, rfl⟩

/-- Settles O33: the register clause by cases, the others by what each instruction leaves unchanged. -/
theorem writersOfEachState : Obligations.WritersOfEachState := by
  intro i s
  refine ⟨effect i s, exec_eq i s, effect_ioAttached i s, ?_, fun hstr => ?_, effect_pc_of_ne s,
    effect_inQ_of_ne_ldr s, effect_halted_of_ne_hlt s⟩
  · cases i with
    | mov rd rs => exact fun q hq => State.reg_setReg_other s rd q _ hq
    | add rd rs | sub rd rs | ldi rd imm => exact fun q hq => State.reg_setRegZ_other _ rd q _ hq
    | ldr rd addr =>
      rw [effect_ldr]
      exact fun q hq => State.reg_setRegZ_other _ rd q _ hq
    | str | wait => exact fun r => by simp
    | _ => exact fun _ => rfl
  · obtain ⟨hmem, hlog⟩ := effect_mem_outLog_of_ne_str s hstr
    exact ⟨fun a => congrArg (Memory.cell · a.toNat) hmem, hlog⟩

/-- Settles O34: HLT alone sets the bit, and no move but reset writes it once it is set. -/
theorem haltedIsSetOnlyByHltAndClearedOnlyByReset : Obligations.HaltedIsSetOnlyByHltAndClearedOnlyByReset := by
  refine ⟨rfl, fun s byte1 byte2 after hf => ⟨_, step_of_fetches hf, ?_⟩, fun m s h => ?_⟩
  · obtain ⟨hrun, -⟩ := hf
    exact effect_halted_iff hrun
  · cases m with
    | step => exact ⟨s, step_halted s h, fun _ => h, nofun⟩
    | feed bytes => exact ⟨_, rfl, fun _ => h, nofun⟩
    | load bytes =>
      have hkeep (a v : Byte) {u : State} (hu : u.halted = true) : (memWrite a v u).halted = true := by
        rw [memWrite_halted, hu]
      exact ⟨_, rfl, fun _ => loadFrom_keeps hkeep bytes 0 h, nofun⟩
    | reset => exact ⟨_, rfl, fun hne => absurd rfl hne, fun _ => rfl⟩

/-- Settles O35: feeding leaves the halted bit set. -/
theorem haltedMachineIsInert : Obligations.HaltedMachineIsInert := fun _ _ h =>
  ⟨stepN_of_halted h, runFor_of_halted h, stepN_of_halted h⟩

end Sys2Proof.Machine
end

section
/-! The bus primitives and the fetch at every address (20_memory R38 to R42, R52). The key fact is that two adjacent
addresses are never both the input port, so the second fetch read is independent of the first one's outcome. -/

namespace Sys2Proof.Machine

theorem readsPort_of_unattached {s : State} (h : s.ioAttached = false) (a : Byte) : readsPort s a = false := by
  simp [readsPort, h]

theorem writesPort_of_unattached {s : State} (h : s.ioAttached = false) (a : Byte) : writesPort s a = false := by
  simp [writesPort, h]

theorem readsPort_of_ne (s : State) {a : Byte} (h : a ≠ Config.inPort) : readsPort s a = false := by
  simp [readsPort, h]

theorem writesPort_of_ne (s : State) {a : Byte} (h : a ≠ Config.outPort) : writesPort s a = false := by
  simp [writesPort, h]

/-- The address after the input port is not the input port. -/
theorem readsPort_succ_of_readsPort {s : State} {a : Byte} (h : readsPort s a = true) (t : State) :
    readsPort t (a + 1#8) = false := by
  obtain ⟨-, rfl⟩ := (readsPort_iff s a).mp h
  exact readsPort_of_ne t (by decide)

/-- A redirected read takes the queue's head, an empty queue standing for 0x00. -/
theorem memRead_of_readsPort {a : Byte} {s : State} (h : readsPort s a = true) :
    memRead a s = (s.inQ.headD Config.emptyInput, { s with inQ := s.inQ.drop 1 }) := by
  cases hq : s.inQ with
  | nil => rw [memRead_empty a s h hq, List.headD_nil, List.drop_nil, ← hq]
  | cons b q => rw [memRead_pop a s b q h hq, List.headD_cons, List.drop_one, List.tail_cons]

theorem memRead_inQ (a : Byte) (s : State) :
    (memRead a s).2.inQ = s.inQ.drop (if readsPort s a = true then 1 else 0) := by
  cases h : readsPort s a with
  | true => rw [memRead_of_readsPort h, if_pos rfl]
  | false => rw [memRead_plain a s h]; rfl

/-- A read that is not redirected gives its cell, whatever another read has taken before it. -/
theorem memRead_fst_after_memRead {a : Byte} {s : State} (h : readsPort s a = false) (b : Byte) :
    (memRead a (memRead b s).2).1 = s.cell a := by
  rw [memRead_snd_eq]
  exact congrArg Prod.fst (memRead_plain a { s with inQ := (memRead b s).2.inQ } h)

theorem fetch_byte1_of_plain {s : State} (h : readsPort s s.pc = false) : (fetch s).byte1 = s.cell s.pc :=
  congrArg Prod.fst (memRead_plain s.pc s h)

theorem fetch_byte2_of_plain {s : State} (h : readsPort s (s.pc + 1#8) = false) :
    (fetch s).byte2 = s.cell (s.pc + 1#8) :=
  memRead_fst_after_memRead h s.pc

/-- A fetch whose first read is redirected takes byte1 from the queue. -/
theorem fetch_of_byte1_port {s : State} (h : readsPort s s.pc = true) :
    fetch s = ⟨s.inQ.headD Config.emptyInput, s.cell (s.pc + 1#8), { s with inQ := s.inQ.drop 1 }⟩ := by
  simp only [fetch, memRead_of_readsPort h, memRead_plain _ _ (readsPort_succ_of_readsPort h _)]
  rfl

/-- A fetch whose second read is redirected takes byte2 from the queue. -/
theorem fetch_of_byte2_port {s : State} (h : readsPort s (s.pc + 1#8) = true) :
    fetch s = ⟨s.cell s.pc, s.inQ.headD Config.emptyInput, { s with inQ := s.inQ.drop 1 }⟩ := by
  have h1 : readsPort s s.pc = false := Bool.eq_false_of_not_eq_true fun hpc => by
    simp [readsPort_succ_of_readsPort hpc] at h
  simp only [fetch, memRead_plain _ _ h1, memRead_of_readsPort h]

/-- The two fetch reads take one byte if one of them is redirected, and none otherwise. -/
theorem fetch_after_inQ (s : State) : (fetch s).after.inQ =
    s.inQ.drop (if readsPort s s.pc = true ∨ readsPort s (s.pc + 1#8) = true then 1 else 0) := by
  cases h1 : readsPort s s.pc with
  | true => rw [fetch_of_byte1_port h1, if_pos (.inl rfl)]
  | false =>
    cases h2 : readsPort s (s.pc + 1#8) with
    | true => rw [fetch_of_byte2_port h2, if_pos (.inr rfl)]
    | false => rw [fetch_plain s h1 h2, if_neg (by simp), List.drop_zero]

/-- A number masks to a byte exactly if it leaves that remainder modulo 256. -/
theorem ofNat_eq_byte_iff (n : Nat) (b : Byte) : BitVec.ofNat 8 n = b ↔ n % 256 = b.toNat := by
  rw [← BitVec.toNat_inj, BitVec.toNat_ofNat]

theorem ofNat_mod_memSize (n : Nat) : BitVec.ofNat 8 (n % 256) = BitVec.ofNat 8 n := by
  rw [ofNat_eq_byte_iff, BitVec.toNat_ofNat, Nat.mod_mod]

theorem ofNat_add_mul_memSize (n k : Nat) : BitVec.ofNat 8 (n + 256 * k) = BitVec.ofNat 8 n := by
  rw [ofNat_eq_byte_iff, BitVec.toNat_ofNat, Nat.add_mul_mod_self_left]

theorem readsPort_ofNat_iff (s : State) (addr : Nat) :
    readsPort s (BitVec.ofNat 8 addr) = true ↔ s.ioAttached = true ∧ addr % 256 = 0xF0 := by
  rw [readsPort_iff, ofNat_eq_byte_iff]
  rfl

theorem writesPort_ofNat_iff (s : State) (addr : Nat) :
    writesPort s (BitVec.ofNat 8 addr) = true ↔ s.ioAttached = true ∧ addr % 256 = 0xF1 := by
  rw [writesPort_iff, ofNat_eq_byte_iff]
  rfl

theorem cell_setCell_self (s : State) (a v : Byte) : (s.setCell a v).cell a = v := by
  rw [State.cell_setCell, if_pos rfl]

theorem sameCellsBut_setCell (s : State) (a v : Byte) : SameCellsBut a s (s.setCell a v) := fun b hb => by
  rw [State.cell_setCell, if_neg hb]

/-- Settles O44: the three cases of a read, the redirected address told by its remainder. -/
theorem memReadContract : Obligations.MemReadContract := by
  refine fun addr s => ⟨fun hio haddr => ?_, fun hplain => ?_⟩
  · have hport := (readsPort_ofNat_iff s addr).mpr ⟨hio, haddr⟩
    exact ⟨memRead_empty _ s hport, fun b q => memRead_pop _ s b q hport⟩
  · rw [← readsPort_ofNat_iff, Bool.not_eq_true] at hplain
    rw [ofNat_mod_memSize]
    exact memRead_plain _ s hplain

/-- Settles O45: the two cases of a write, the redirected address told by its remainder. -/
theorem memWriteContract : Obligations.MemWriteContract := by
  intro addr value s
  rw [← writesPort_ofNat_iff, ofNat_mod_memSize, ofNat_mod_memSize, busWrite]
  refine ⟨memWrite_emit _ _ s, fun hplain => ?_⟩
  rw [memWrite_plain _ _ s (Bool.eq_false_of_not_eq_true hplain)]
  exact ⟨cell_setCell_self s _ _, sameCellsBut_setCell s _ _, rfl⟩

/-- Settles O46: an address enters both primitives through its remainder; 0xFF + 1 is 0x00. -/
theorem addressesAreMasked : Obligations.AddressesAreMasked := by
  refine ⟨fun addr k value s => ?_, fun s hpc => ?_⟩
  · rw [busRead, busWrite, ofNat_add_mul_memSize]
    exact ⟨rfl, rfl⟩
  · have hnext : s.pc + 1#8 = 0x00#8 := by rw [hpc]; decide
    have hplain : readsPort s (s.pc + 1#8) = false := readsPort_of_ne s (by rw [hnext]; decide)
    refine ⟨?_, ?_⟩
    · rw [fetch_byte2_of_plain hplain, hnext]
    · rw [hnext]
      rfl

/-- Settles O47: without a channel no address is redirected. -/
theorem withoutChannelThereAreNoPorts : Obligations.WithoutChannelThereAreNoPorts := by
  intro a v s hio
  rw [memWrite_plain a v s (writesPort_of_unattached hio a)]
  exact ⟨memRead_plain a s (readsPort_of_unattached hio a), cell_setCell_self s a v, sameCellsBut_setCell s a v, rfl,
    fetch_plain s (readsPort_of_unattached hio _) (readsPort_of_unattached hio _)⟩

/-- Settles O48: pc 0xF0 redirects the first fetch read alone, pc 0xEF the second alone, every other pc neither. -/
theorem fetchThroughTheInputPort : Obligations.FetchThroughTheInputPort := by
  refine fun s hio => ⟨fun hpc => ?_, fun hpc => ?_, fun hF0 hEF => ?_⟩
  · have hnext : s.pc + 1#8 = 0xF1#8 := by rw [hpc]; decide
    rw [fetch_of_byte1_port ((readsPort_iff s s.pc).mpr ⟨hio, hpc⟩), hnext]
    rfl
  · have hnext : s.pc + 1#8 = 0xF0#8 := by rw [hpc]; decide
    rw [fetch_of_byte2_port ((readsPort_iff s _).mpr ⟨hio, hnext⟩), hpc]
    rfl
  · have hnext : s.pc + 1#8 ≠ 0xF0#8 := by bv_omega
    exact fetch_plain s (readsPort_of_ne s hF0) (readsPort_of_ne s hnext)

end Sys2Proof.Machine
end

section
/-! Encoding and decoding, for one instruction and for a whole image (20_memory R48, 30_encoding R63, R73). -/

namespace Sys2Proof.Machine

/-- byte1 of any fields has those fields: they fill it without overlap. -/
theorem hasFields_bytes (f : Fields) : HasFields f.bytes.1 f.opcode.toNat f.rd f.rs := by
  have hop := f.opcode.isLt
  have hrd := f.rd.toNat_lt
  have hrs := f.rs.toNat_lt
  rw [HasFields, Fields.bytes, BitVec.toNat_ofNat]
  omega

/-- The decoder reads back the fields it is given. -/
theorem decode_bytes (f : Fields) : decode f.bytes.1 f.bytes.2 = f.instr := by
  rw [decode_of_hasFields (hasFields_bytes f), BitVec.ofNat_toNat, BitVec.setWidth_eq]
  rfl

/-- The canonical fields of an instruction select its own row of the table. -/
theorem instr_encodeFields (i : Instr) : (encodeFields i).instr = i := by
  cases i <;> simp [encodeFields, Fields.instr]

theorem decode_encode (i : Instr) : decode (encode i).1 (encode i).2 = i :=
  (decode_bytes (encodeFields i)).trans (instr_encodeFields i)

theorem decodeImage_flatMap_encodeBytes (is : List Instr) : decodeImage (is.flatMap encodeBytes) = .ok is := by
  induction is with
  | nil => rfl
  | cons i is ih =>
    rw [List.flatMap_cons, encodeBytes, List.cons_append, List.cons_append, List.nil_append, decodeImage, ih,
      decode_encode]

/-- Two bytes in front of an image are one instruction more and do not make it fail or succeed. -/
theorem decodeImage_cons_cons_eq_error_iff (byte1 byte2 : Byte) (rest : List Byte) (e : DecodeReject) :
    decodeImage (byte1 :: byte2 :: rest) = .error e ↔ decodeImage rest = .error e := by
  rw [decodeImage]
  cases decodeImage rest <;> simp

theorem odd_length_iff_decodeImage_eq_error (bytes : List Byte) :
    bytes.length % 2 = 1 ↔ decodeImage bytes = .error .truncated :=
  match bytes with
  | [] => by simp [decodeImage]
  | [_] => by simp [decodeImage]
  | byte1 :: byte2 :: rest => by
    rw [decodeImage_cons_cons_eq_error_iff, ← odd_length_iff_decodeImage_eq_error rest, List.length_cons,
      List.length_cons, Nat.add_assoc, Nat.add_mod_right]

/-- Settles O12: instruction by instruction, and two bytes at a time. -/
theorem imageReadsBack : Obligations.ImageReadsBack :=
  ⟨decodeImage_flatMap_encodeBytes, odd_length_iff_decodeImage_eq_error⟩

end Sys2Proof.Machine
end

section
/-! One step and the memory: what a store leaves for the next read, how much input a step takes, and the two builds
side by side (20_memory R42, R45, R47, R57, R61). -/

namespace Sys2Proof.Machine

/-- A STR that is not redirected stores into the state its fetch has left, pc advanced. -/
theorem step_of_fetches_str {s after : State} {byte1 byte2 : Byte} {rs : Reg} {addr : Byte}
    (hf : Fetches s byte1 byte2 after) (hi : decode byte1 byte2 = .str rs addr) (hplain : writesPort s addr = false) :
    step s = .next (State.setCell { s with pc := s.pc + 2#8, inQ := after.inQ } addr (s.reg rs)) := by
  rw [step_of_fetches hf, hi, effect_str]
  exact congrArg Host.Outcome.next (memWrite_plain addr (s.reg rs) _ hplain)

/-- A fetch one below an address that is not redirected takes byte2 from that address. -/
theorem fetch_byte2_at_pred {s : State} {a : Byte} (h : readsPort s a = false) :
    (fetch { s with pc := a - 1#8 }).byte2 = s.cell a := by
  have hnext : a - 1#8 + 1#8 = a := BitVec.sub_add_cancel a 1#8
  have hplain : readsPort s (a - 1#8 + 1#8) = false := by rw [hnext, h]
  exact (fetch_byte2_of_plain (s := { s with pc := a - 1#8 }) hplain).trans (congrArg s.cell hnext)

/-- Every way to read an address that is not redirected gives the byte its cell holds: a data read, and a fetch at the
address or one below it. -/
theorem reads_give_cell {s : State} {a v : Byte} (hcell : s.cell a = v) (hread : readsPort s a = false) :
    memRead a s = (v, s) ∧ (fetch { s with pc := a }).byte1 = v ∧ (fetch { s with pc := a - 1#8 }).byte2 = v := by
  rw [← hcell]
  exact ⟨memRead_plain a s hread, fetch_byte1_of_plain (s := { s with pc := a }) hread, fetch_byte2_at_pred hread⟩

/-- Settles O23: the cell holds the stored byte, so every later read of it that is not redirected gives that byte. -/
theorem storeIsSeenByNextFetch : Obligations.StoreIsSeenByNextFetch := by
  intro s byte1 byte2 after rs addr hf hi hplain
  have hcell := cell_setCell_self { s with pc := s.pc + 2#8, inQ := after.inQ } addr (s.reg rs)
  refine ⟨_, step_of_fetches_str hf hi hplain, hcell, fun hread => ?_⟩
  obtain ⟨hload, hbyte1, hbyte2⟩ := reads_give_cell hcell hread
  exact ⟨hload, hbyte1, fun _ => hbyte2⟩

/-- How many input bytes an instruction's data access asks for: one where LDR reads the input port. -/
def dataPortReads (s : State) : Instr → Nat
  | .ldr _ addr => if readsPort s addr = true then 1 else 0
  | _ => 0

theorem effect_inQ (i : Instr) (s : State) : (effect i s).inQ = s.inQ.drop (dataPortReads s i) := by
  cases i with
  | ldr rd addr => rw [effect_ldr, State.setRegZ_inQ, memRead_inQ, dataPortReads]
  | _ => exact effect_inQ_of_ne_ldr s nofun

/-- Settles O38: what the fetch reads take (`fetch_after_inQ`) and then what the instruction takes (`effect_inQ`). -/
theorem inputIsConsumedOneBytePerPortRead : Obligations.InputIsConsumedOneBytePerPortRead := by
  intro s byte1 byte2 after hf
  refine ⟨_, step_of_fetches hf, ?_⟩
  obtain ⟨-, hfetch⟩ := hf
  have hafter := fetch_after_inQ s
  rw [hfetch] at hafter
  rw [effect_inQ, hafter, List.drop_drop]
  rfl

/-- The same state in the build without a channel. -/
def State.detached (s : State) : State := { s with ioAttached := false }

theorem memRead_detached {a : Byte} {s : State} (h : readsPort s a = false) :
    memRead a s.detached = ((memRead a s).1, (memRead a s).2.detached) := by
  rw [memRead_plain a s h, memRead_plain a s.detached (readsPort_of_unattached rfl a)]
  rfl

theorem memWrite_detached {a : Byte} (v : Byte) {s : State} (h : writesPort s a = false) :
    memWrite a v s.detached = (memWrite a v s).detached := by
  rw [memWrite_plain a v s h, memWrite_plain a v s.detached (writesPort_of_unattached rfl a)]
  rfl

/-- The meanings that touch no port do not see the build. -/
theorem effect_detached {i : Instr} (s : State) (hwait : i ≠ .wait) (hldr : ∀ rd, i ≠ .ldr rd Config.inPort)
    (hstr : ∀ rs, i ≠ .str rs Config.outPort) : effect i s.detached = (effect i s).detached := by
  cases i with
  | wait => exact absurd rfl hwait
  | ldr rd addr =>
    have haddr : addr ≠ Config.inPort := fun h => hldr rd (h ▸ rfl)
    rw [effect_ldr, effect_ldr, memRead_detached (readsPort_of_ne s haddr)]
    rfl
  | str rs addr =>
    have haddr : addr ≠ Config.outPort := fun h => hstr rs (h ▸ rfl)
    exact memWrite_detached (s.reg rs) (writesPort_of_ne s haddr)
  | _ => rfl

/-- A fetch that avoids the port gives the same bytes in both builds and changes neither state. -/
theorem Fetches.detached {s after : State} {byte1 byte2 : Byte} (h : Fetches s byte1 byte2 after)
    (havoid : FetchAvoidsPort s) : Fetches s.detached byte1 byte2 after.detached := by
  obtain ⟨hrun, hf⟩ := h
  obtain ⟨h1, h2⟩ := havoid
  rw [fetch_plain s h1 h2] at hf
  cases hf
  exact ⟨hrun, fetch_plain s.detached (readsPort_of_unattached rfl _) (readsPort_of_unattached rfl _)⟩

/-- Settles O49: both builds fetch the same instruction, and its meaning does not see the build. -/
theorem buildsAgreeAwayFromThePorts : Obligations.BuildsAgreeAwayFromThePorts := by
  intro s byte1 byte2 after hf havoid hwait hldr hstr
  refine ⟨_, step_of_fetches hf, (step_of_fetches (hf.detached havoid)).trans ?_⟩
  exact congrArg Host.Outcome.next (effect_detached { s with pc := s.pc + 2#8, inQ := after.inQ } hwait hldr hstr)

end Sys2Proof.Machine
end

section
/-! The encoding in both directions (30_encoding R67, R70, R73, R81): the fields of a byte1 and its bits, and the words
that encode what they decode to. The key fact is `encodeFields_instr_iff`: fields are canonical exactly if the
row they select keeps all of them that are not zero. -/

namespace Sys2Proof

@[simp] theorem Reg.toNat_ofBits (b : BitVec 2) : (Reg.ofBits b).toNat = b.toNat := by
  revert b
  decide

end Sys2Proof

namespace Sys2Proof.Machine

/-- The fields at bits 7-4, 3-2 and 1-0, as quotients and remainders. -/
theorem fieldsOf_toNat (byte1 byte2 : Byte) :
    (fieldsOf byte1 byte2).opcode.toNat = byte1.toNat / 16 ∧
    (fieldsOf byte1 byte2).rd.toNat = byte1.toNat / 4 % 4 ∧ (fieldsOf byte1 byte2).rs.toNat = byte1.toNat % 4 := by
  have hlt := byte1.isLt
  simp only [fieldsOf, Reg.toNat_ofBits, BitVec.extractLsb'_toNat]
  omega

/-- Every byte1 has fields. -/
theorem hasFields_fieldsOf (byte1 byte2 : Byte) : HasFields byte1 (fieldsOf byte1 byte2).opcode.toNat
    (fieldsOf byte1 byte2).rd (fieldsOf byte1 byte2).rs := by
  obtain ⟨hop, hrd, hrs⟩ := fieldsOf_toNat byte1 byte2
  rw [HasFields, hop, hrd, hrs]
  omega

theorem fieldsOf_bytes (f : Fields) : fieldsOf f.bytes.1 f.bytes.2 = f := by
  rw [fieldsOf_of_hasFields (hasFields_bytes f), BitVec.ofNat_toNat, BitVec.setWidth_eq]
  rfl

theorem bytes_fieldsOf (byte1 byte2 : Byte) : (fieldsOf byte1 byte2).bytes = (byte1, byte2) := by
  refine Prod.ext (BitVec.eq_of_toNat_eq ?_) rfl
  exact (hasFields_bytes (fieldsOf byte1 byte2)).trans (hasFields_fieldsOf byte1 byte2).symm

theorem canonical_encodeFields (i : Instr) : (encodeFields i).canonical = true := by
  cases i <;> rfl

theorem fieldsOf_encode (i : Instr) : fieldsOf (encode i).1 (encode i).2 = encodeFields i :=
  fieldsOf_bytes (encodeFields i)

/-- Opcode by opcode: the canonical fields are the ones the selected row keeps. -/
theorem encodeFields_instr_of_canonical {f : Fields} (h : f.canonical = true) : encodeFields f.instr = f := by
  obtain ⟨op, rd, rs, operand⟩ := f
  obtain ⟨n, rfl⟩ : ∃ n : Fin 16, op = BitVec.ofFin n := ⟨op.toFin, rfl⟩
  fin_cases n <;>
    simp_all [Fields.canonical, Fields.rdCanonical, Fields.rsCanonical, Fields.operandCanonical, Fields.readsRd,
      Fields.readsRs, Fields.readsOperand, Fields.instr, encodeFields]

theorem encodeFields_instr_iff (f : Fields) : f.canonical = true ↔ encodeFields f.instr = f :=
  ⟨encodeFields_instr_of_canonical, fun h => h ▸ canonical_encodeFields f.instr⟩

/-- Settles O10: the decoder reads back the fields of the canonical encoding, and these select the instruction's row. -/
theorem decodeInvertsEncode : Obligations.DecodeInvertsEncode := decode_encode

/-- Settles O9: the fields are those of `fieldsOf`; the row is then read off the opcode. -/
theorem decodeByOpcode : Obligations.DecodeByOpcode := by
  refine ⟨fun byte1 => ?_, fun byte1 byte2 op rd rs h => ?_⟩
  · obtain ⟨hop, hrd, hrs⟩ := fieldsOf_toNat byte1 0x00#8
    exact ⟨_, _, hrd, hrs, hop ▸ BitVec.isLt _, hop ▸ hasFields_fieldsOf byte1 0x00#8⟩
  · rw [decode_of_hasFields h]
    and_intros <;>
      · rintro rfl
        simp [Fields.instr]

/-- Settles O11: words and fields correspond one to one, and `encodeFields_instr_iff` does the rest. -/
theorem encodeInvertsDecodeOnCanonicalWords : Obligations.EncodeInvertsDecodeOnCanonicalWords := by
  intro byte1 byte2
  rw [encodeFields_instr_iff]
  constructor
  · intro h
    rw [encode, decode, h, bytes_fieldsOf]
  · intro h
    have hfields := fieldsOf_encode (decode byte1 byte2)
    rw [h] at hfields
    exact hfields.symm

/-- Settles O13: the decoder evaluated on the ten words. -/
theorem sampleWordsDecode : Obligations.SampleWordsDecode := by
  unfold Obligations.SampleWordsDecode
  decide

end Sys2Proof.Machine
end

section
/-! A word placed for the next step (log 19): what `State.offer` leaves unchanged, and that a fetch finds both offered
bytes and takes from the queue exactly what was offered there. -/

namespace Sys2Proof.Machine

theorem offer_plain {s : State} {a : Byte} (h : readsPort s a = false) (v : Byte) : s.offer a v = s.setCell a v := by
  simp [State.offer, h]

theorem offer_port {s : State} {a : Byte} (h : readsPort s a = true) (v : Byte) :
    s.offer a v = { s with inQ := v :: s.inQ } := by
  simp [State.offer, h]

/-- Offering a byte changes memory and queue alone. -/
theorem offer_eq (s : State) (a v : Byte) :
    s.offer a v = { s with mem := (s.offer a v).mem, inQ := (s.offer a v).inQ } := by
  cases h : readsPort s a with
  | false => rw [offer_plain h]; rfl
  | true => rw [offer_port h]

@[simp] theorem offer_regs (s : State) (a v : Byte) : (s.offer a v).regs = s.regs := by rw [offer_eq]
@[simp] theorem offer_pc (s : State) (a v : Byte) : (s.offer a v).pc = s.pc := by rw [offer_eq]
@[simp] theorem offer_z (s : State) (a v : Byte) : (s.offer a v).z = s.z := by rw [offer_eq]
@[simp] theorem offer_c (s : State) (a v : Byte) : (s.offer a v).c = s.c := by rw [offer_eq]
@[simp] theorem offer_halted (s : State) (a v : Byte) : (s.offer a v).halted = s.halted := by rw [offer_eq]
@[simp] theorem offer_outLog (s : State) (a v : Byte) : (s.offer a v).outLog = s.outLog := by rw [offer_eq]
@[simp] theorem offer_ioAttached (s : State) (a v : Byte) : (s.offer a v).ioAttached = s.ioAttached := by rw [offer_eq]

theorem offer_cell_of_ne {a b : Byte} (s : State) (v : Byte) (h : b ≠ a) : (s.offer a v).cell b = s.cell b := by
  cases hp : readsPort s a with
  | false => rw [offer_plain hp, State.cell_setCell, if_neg h]
  | true => rw [offer_port hp]; rfl

/-- Both bytes of an instruction offered to the next fetch. -/
def State.offerBoth (s : State) (byte1 byte2 : Byte) : State := (s.offer (s.pc + 1#8) byte2).offer s.pc byte1

theorem withFetchWord_eq (s : State) (nbits w : Nat) : s.withFetchWord nbits w =
    { s with halted := false }.offerBoth (bytesOfWord (w % 2 ^ nbits)).1 (bytesOfWord (w % 2 ^ nbits)).2 := rfl

/-- A read of the address finds the offered byte and takes no other one from the queue. -/
theorem memRead_offer (a v : Byte) (s : State) :
    (memRead a (s.offer a v)).1 = v ∧ (memRead a (s.offer a v)).2.inQ = s.inQ := by
  cases h : readsPort s a with
  | false =>
    rw [offer_plain h, memRead_plain a (s.setCell a v) h]
    exact ⟨cell_setCell_self s a v, rfl⟩
  | true =>
    rw [offer_port h, memRead_pop a { s with inQ := v :: s.inQ } v s.inQ h rfl]
    exact ⟨rfl, rfl⟩

/-- A read depends on the build, the queue and the one cell. -/
theorem memRead_congr {s t : State} {a : Byte} (hio : t.ioAttached = s.ioAttached) (hq : t.inQ = s.inQ)
    (hcell : t.cell a = s.cell a) :
    (memRead a t).1 = (memRead a s).1 ∧ (memRead a t).2.inQ = (memRead a s).2.inQ := by
  have hp := readsPort_congr hio a
  cases h : readsPort s a with
  | false =>
    rw [memRead_plain a s h, memRead_plain a t (hp.trans h)]
    exact ⟨hcell, hq⟩
  | true =>
    rw [memRead_of_readsPort h, memRead_of_readsPort (hp.trans h), hq]
    exact ⟨rfl, rfl⟩

/-- The second read of a fetch does not see what was offered to the first one. -/
theorem fetch_offerBoth (s : State) (byte1 byte2 : Byte) :
    (fetch (s.offerBoth byte1 byte2)).byte1 = byte1 ∧ (fetch (s.offerBoth byte1 byte2)).byte2 = byte2 ∧
    (fetch (s.offerBoth byte1 byte2)).after.inQ = s.inQ := by
  obtain ⟨hbyte1, hq1⟩ := memRead_offer s.pc byte1 (s.offer (s.pc + 1#8) byte2)
  obtain ⟨hbyte2, hq2⟩ := memRead_offer (s.pc + 1#8) byte2 s
  have hne : s.pc + 1#8 ≠ s.pc := by bv_omega
  have hread := memRead_snd_eq s.pc (s.offerBoth byte1 byte2)
  have hcell : (memRead s.pc (s.offerBoth byte1 byte2)).2.cell (s.pc + 1#8) =
      (s.offer (s.pc + 1#8) byte2).cell (s.pc + 1#8) := by
    rw [hread]
    exact offer_cell_of_ne _ byte1 hne
  have hio : (memRead s.pc (s.offerBoth byte1 byte2)).2.ioAttached = (s.offer (s.pc + 1#8) byte2).ioAttached := by
    rw [hread]
    exact offer_ioAttached _ _ byte1
  obtain ⟨hsecond, hsecondQ⟩ := memRead_congr hio hq1 hcell
  have hpc : (s.offerBoth byte1 byte2).pc = s.pc := by simp [State.offerBoth]
  simp only [fetch, hpc]
  exact ⟨hbyte1, hsecond.trans hbyte2, hsecondQ.trans hq2⟩

theorem offerBoth_cell_of_ne {s : State} {a : Byte} (byte1 byte2 : Byte) (h1 : a ≠ s.pc) (h2 : a ≠ s.pc + 1#8) :
    (s.offerBoth byte1 byte2).cell a = s.cell a := by
  rw [State.offerBoth, offer_cell_of_ne _ byte1 h1, offer_cell_of_ne s byte2 h2]

/-- The step of a running machine after the offer runs the two bytes in the state the offer was made in, pc advanced. -/
theorem step_offerBoth {s : State} (h : s.halted = false) (byte1 byte2 : Byte) :
    step (s.offerBoth byte1 byte2) = exec (decode byte1 byte2)
      { s with pc := s.pc + 2#8, mem := (s.offerBoth byte1 byte2).mem } := by
  obtain ⟨hbyte1, hbyte2, hq⟩ := fetch_offerBoth s byte1 byte2
  have hrun : (s.offerBoth byte1 byte2).halted = false := by simp [State.offerBoth, h]
  rw [step_eq_nextState, nextState_of_running hrun, exec_eq, fetchedInstr, hbyte1, hbyte2, dispatchState, hq]
  simp [State.offerBoth]

/-- Settles O56: the word's bytes are offered to a running machine, whose next step runs them (`step_offerBoth`). -/
theorem placedWordRunsNext : Obligations.PlacedWordRunsNext := by
  intro s w
  rw [withFetchWord_eq]
  exact ⟨_, _, rfl, step_offerBoth rfl _ _, rfl, rfl, ⟨rfl, rfl⟩, rfl, ⟨rfl, rfl, rfl⟩,
    fun a h1 h2 => offerBoth_cell_of_ne (s := { s with halted := false }) _ _ h1 h2⟩

end Sys2Proof.Machine
end

section
/-! The assembler (30_encoding R74 to R83): what it does with the instruction lines, all of them or none, and where the
bytes of each line lie. The key fact is `assembleLines_eq_ok_iff`: the instructions are those of the lines, one each. -/

namespace Sys2Proof.Machine

theorem assembleLines_cons_of_ok {l : Text} {i : Instr} (h : lineInstr l = .ok i) (ls : List Text) :
    assembleLines (l :: ls) = (assembleLines ls).map (i :: ·) := by
  rw [assembleLines, h]
  cases assembleLines ls <;> rfl

theorem assembleLines_cons_of_error {l : Text} {e : AsmError} (h : lineInstr l = .error e) (ls : List Text) :
    assembleLines (l :: ls) = .error e := by
  rw [assembleLines, h]
  rfl

theorem assemble_eq (text : Text) :
    assemble text = (assembleLines (instrLines text)).map (·.flatMap encodeBytes) := by
  rw [assemble]
  cases assembleLines (instrLines text) <;> rfl

theorem assembleLines_eq_ok_iff (ls : List Text) (is : List Instr) :
    assembleLines ls = .ok is ↔ List.Forall₂ (fun l i => lineInstr l = .ok i) ls is := by
  induction ls generalizing is with
  | nil => simp [assembleLines, eq_comm]
  | cons l ls ih =>
    cases hl : lineInstr l with
    | error e => simp [assembleLines_cons_of_error hl, List.forall₂_cons_left_iff, hl]
    | ok i =>
      rw [assembleLines_cons_of_ok hl, List.forall₂_cons_left_iff]
      simp only [hl, ← ih]
      cases assembleLines ls <;> simp [Except.map, eq_comm]

theorem exists_assembleLines_eq_error_iff (ls : List Text) :
    (∃ e, assembleLines ls = .error e) ↔ ∃ l ∈ ls, ∃ e, lineInstr l = .error e := by
  induction ls with
  | nil => simp [assembleLines]
  | cons l ls ih =>
    rw [List.exists_mem_cons_iff, ← ih]
    cases hl : lineInstr l with
    | error e => simp [assembleLines_cons_of_error hl]
    | ok i =>
      rw [assembleLines_cons_of_ok hl]
      cases assembleLines ls <;> simp [Except.map]

theorem assemble_eq_ok_iff (text : Text) (bytes : List Byte) : assemble text = .ok bytes ↔
    ∃ is, List.Forall₂ (fun l i => lineInstr l = .ok i) (instrLines text) is ∧ is.flatMap encodeBytes = bytes := by
  simp only [assemble_eq, ← assembleLines_eq_ok_iff]
  cases assembleLines (instrLines text) <;> simp [Except.map]

theorem length_flatMap_encodeBytes (is : List Instr) : (is.flatMap encodeBytes).length = 2 * is.length := by
  induction is with
  | nil => rfl
  | cons i is ih =>
    simp only [List.flatMap_cons, encodeBytes, List.length_append, List.length_cons, List.length_nil, ih]
    omega

/-- Instruction N of an image lies at bytes 2N and 2N + 1. -/
theorem flatMap_encodeBytes_getElem? {is : List Instr} {n : Nat} {i : Instr} (h : is[n]? = some i) :
    (is.flatMap encodeBytes)[2 * n]? = some (encode i).1 ∧
    (is.flatMap encodeBytes)[2 * n + 1]? = some (encode i).2 := by
  induction is generalizing n with
  | nil => simp at h
  | cons j is ih =>
    cases n with
    | zero =>
      obtain rfl : j = i := by simpa using h
      exact ⟨rfl, rfl⟩
    | succ n => exact ih (by simpa using h)

/-- Settles O59: assembly is that of the lines, and fails with the first one that fails. -/
theorem assemblyIsAllOrNothing : Obligations.AssemblyIsAllOrNothing := by
  intro text
  rw [← exists_assembleLines_eq_error_iff, assemble_eq]
  cases assembleLines (instrLines text) <;> simp [Except.map]

/-- Settles O58: the lines and the instructions stand side by side, each instruction at its two bytes. -/
theorem assembledLineIsTwoBytes : Obligations.AssembledLineIsTwoBytes := by
  intro text bytes h
  obtain ⟨is, hlines, rfl⟩ := (assemble_eq_ok_iff text bytes).mp h
  have hlength := hlines.length_eq
  refine ⟨by rw [length_flatMap_encodeBytes, hlength], fun n hn => ?_⟩
  have hn' : n < is.length := hlength ▸ hn
  obtain ⟨hbyte1, hbyte2⟩ := flatMap_encodeBytes_getElem? (List.getElem?_eq_getElem hn')
  refine ⟨is[n], hlines.get hn hn', hbyte1, hbyte2, ?_⟩
  rw [fieldsOf_encode, canonical_encodeFields]

end Sys2Proof.Machine
end

section
/-! The pieces of canonical assembly text are read back (30_encoding R75, R77, R78, R82): the tokens of a line, the
digits of a byte, the register names. -/

namespace Sys2Proof.Machine

theorem splitText_append_cons {cut : Char → Bool} {p : Text} (hp : ∀ ch ∈ p, cut ch = false) {d : Char}
    (hd : cut d = true) (t : Text) : splitText cut (p ++ d :: t) = p :: splitText cut t := by
  induction p with
  | nil => simp [splitText, hd]
  | cons ch p ih =>
    obtain ⟨hch, hp⟩ := List.forall_mem_cons.mp hp
    simp [splitText, hch, ih hp]

theorem splitText_of_uncut {cut : Char → Bool} {p : Text} (hp : ∀ ch ∈ p, cut ch = false) :
    splitText cut p = [p] := by
  induction p with
  | nil => rfl
  | cons ch p ih =>
    obtain ⟨hch, hp⟩ := List.forall_mem_cons.mp hp
    simp [splitText, hch, ih hp]

/-- A text that can stand as one token of a line: not empty, and no separator in it. -/
def isToken (t : Text) : Bool := !t.isEmpty && t.all (fun ch => !isSeparator ch)

theorem isToken_iff (t : Text) : isToken t = true ↔ t ≠ [] ∧ ∀ ch ∈ t, isSeparator ch = false := by
  simp [isToken]

theorem tokens_of_isToken {p : Text} (hp : isToken p = true) : tokens p = [p] := by
  obtain ⟨hne, hsep⟩ := (isToken_iff p).mp hp
  simp [tokens, splitText_of_uncut hsep, hne]

theorem tokens_append_cons {p : Text} (hp : isToken p = true) {d : Char} (hd : isSeparator d = true) (t : Text) :
    tokens (p ++ d :: t) = p :: tokens t := by
  obtain ⟨hne, hsep⟩ := (isToken_iff p).mp hp
  simp [tokens, splitText_append_cons hsep hd, hne]

theorem tokens_cons_of_separator {d : Char} (hd : isSeparator d = true) (t : Text) : tokens (d :: t) = tokens t := by
  simp [tokens, splitText, hd]

theorem tokens_twoOperandText {name a b : Text} (hname : isToken name = true) (ha : isToken a = true)
    (hb : isToken b = true) : tokens (twoOperandText name a b) = [name, a, b] := by
  rw [twoOperandText, List.append_assoc, List.cons_append, tokens_append_cons hname (by decide),
    tokens_append_cons ha (by decide), tokens_cons_of_separator (by decide), tokens_of_isToken hb]

theorem tokens_oneOperandText {name a : Text} (hname : isToken name = true) (ha : isToken a = true) :
    tokens (name ++ ' ' :: a) = [name, a] := by
  rw [tokens_append_cons hname (by decide), tokens_of_isToken ha]

theorem digit_isDigit_and_value (n : Nat) :
    (digit n).isDigit = true ∧ (digit n).toNat - '0'.toNat = n % 10 := by
  have htable : ∀ d < 10, (Char.ofNat ('0'.toNat + d)).isDigit = true ∧
      (Char.ofNat ('0'.toNat + d)).toNat - '0'.toNat = d := by decide
  exact htable _ (Nat.mod_lt n (by decide))

theorem decimalValue_nil (acc : Nat) : decimalValue acc [] = acc := rfl

theorem decimalValue_digit_cons (acc n : Nat) (t : Text) :
    decimalValue acc (digit n :: t) = decimalValue (acc * 10 + n % 10) t := by
  obtain ⟨-, hvalue⟩ := digit_isDigit_and_value n
  rw [← hvalue]
  rfl

theorem decimalValue_numberText (b : Byte) : decimalValue 0 (numberText b) = b.toNat := by
  have hb := b.isLt
  simp only [numberText]
  split_ifs
  · rw [decimalValue_digit_cons, decimalValue_nil]
    omega
  · rw [decimalValue_digit_cons, decimalValue_digit_cons, decimalValue_nil]
    omega
  · rw [decimalValue_digit_cons, decimalValue_digit_cons, decimalValue_digit_cons, decimalValue_nil]
    omega

theorem allDigits_numberText (b : Byte) : allDigits (numberText b) = true := by
  simp only [numberText]
  split_ifs <;> simp [allDigits, digit_isDigit_and_value]

theorem numberOf_numberText (b : Byte) : numberOf (numberText b) = .ok b := by
  rw [numberOf, if_pos (allDigits_numberText b), decimalValue_numberText, BitVec.ofNat_toNat, BitVec.setWidth_eq]

theorem registerOf_registerText (r : Reg) : registerOf (registerText r) = .ok r := by
  cases r <;> rfl

theorem isSeparator_of_isDigit {ch : Char} (h : ch.isDigit = true) : isSeparator ch = false := by
  simp only [isSeparator, Char.isWhitespace, Bool.or_eq_false_iff, beq_eq_false_iff_ne, decide_eq_false_iff_not]
  and_intros <;>
    · rintro rfl
      simp at h

theorem isToken_of_allDigits {t : Text} (h : allDigits t = true) : isToken t = true := by
  simp only [allDigits, Bool.and_eq_true, List.all_eq_true] at h
  obtain ⟨hne, hdigits⟩ := h
  exact (isToken_iff t).mpr ⟨by simpa using hne, fun ch hch => isSeparator_of_isDigit (hdigits ch hch)⟩

theorem isToken_numberText (b : Byte) : isToken (numberText b) = true := isToken_of_allDigits (allDigits_numberText b)

theorem isToken_registerText (r : Reg) : isToken (registerText r) = true := by
  cases r <;> decide

theorem twoRegisters_texts (name : Text) (make : Reg → Reg → Instr) (a b : Reg) :
    twoRegisters name make [registerText a, registerText b] = .ok (make a b) := by
  rw [twoRegisters, registerOf_registerText, registerOf_registerText]
  rfl

theorem registerNumber_texts (name : Text) (make : Reg → Byte → Instr) (r : Reg) (n : Byte) :
    registerNumber name make [registerText r, numberText n] = .ok (make r n) := by
  rw [registerNumber, registerOf_registerText, numberOf_numberText]
  rfl

theorem oneNumber_text (name : Text) (make : Byte → Instr) (n : Byte) :
    oneNumber name make [numberText n] = .ok (make n) := by
  rw [oneNumber, numberOf_numberText]
  rfl

end Sys2Proof.Machine
end

section
/-! Canonical assembly text is read back (30_encoding R79, R80, R87). The key fact is `instrLines_of_listing`: a listing
has one line for each instruction, and the line reads back as the instruction. -/

namespace Sys2Proof.Machine

theorem lineInstr_instrText {i : Instr} {l : Text} (h : instrText i = some l) : lineInstr l = .ok i := by
  cases i with
  | mov rd rs | add rd rs | sub rd rs =>
    cases h
    rw [lineInstr, tokens_twoOperandText (by decide) (isToken_registerText rd) (isToken_registerText rs)]
    exact twoRegisters_texts _ _ rd rs
  | ldi r n | ldr r n | str r n =>
    cases h
    rw [lineInstr, tokens_twoOperandText (by decide) (isToken_registerText r) (isToken_numberText n)]
    exact registerNumber_texts _ _ r n
  | jmp n =>
    cases h
    rw [lineInstr, tokens_oneOperandText (by decide) (isToken_numberText n)]
    exact oneNumber_text _ _ n
  | nop | wait | hlt =>
    cases h
    rfl
  | _ => cases h

theorem newline_notMem_of_isToken {t : Text} (h : isToken t = true) : '\n' ∉ t := by
  obtain ⟨-, hsep⟩ := (isToken_iff t).mp h
  exact fun hmem => absurd (hsep _ hmem) (by decide)

theorem newline_notMem_registerText (r : Reg) : '\n' ∉ registerText r :=
  newline_notMem_of_isToken (isToken_registerText r)

theorem newline_notMem_numberText (b : Byte) : '\n' ∉ numberText b :=
  newline_notMem_of_isToken (isToken_numberText b)

theorem newline_notMem_instrText {i : Instr} {l : Text} (h : instrText i = some l) : '\n' ∉ l := by
  cases i with
  | mov | add | sub =>
    cases h
    simp [twoOperandText, newline_notMem_registerText]
  | ldi | ldr | str =>
    cases h
    simp [twoOperandText, newline_notMem_registerText, newline_notMem_numberText]
  | jmp =>
    cases h
    simp [newline_notMem_numberText]
  | nop | wait | hlt =>
    cases h
    decide
  | _ => cases h

/-- A canonical line begins with the first letter of its mnemonic. -/
theorem skipped_instrText {i : Instr} {l : Text} (h : instrText i = some l) : skipped l = false := by
  cases i <;> cases h <;> rfl

theorem exists_instrText {i : Instr} (h : i.hasMnemonic = true) : ∃ l, instrText i = some l := by
  cases i with
  | unassigned2 | unassigned9 | unassignedA | unassignedB | unassignedC | unassignedD => cases h
  | _ => exact ⟨_, rfl⟩

theorem instrLines_append_newline {l : Text} (hnewline : '\n' ∉ l) (hkeep : skipped l = false) (t : Text) :
    instrLines (l ++ '\n' :: t) = l :: instrLines t := by
  have hsplit : sourceLines (l ++ '\n' :: t) = l :: sourceLines t :=
    splitText_append_cons (fun ch hch => by simpa using ne_of_mem_of_not_mem hch hnewline) rfl t
  rw [instrLines, hsplit, List.filter_cons_of_pos (by simp [hkeep]), instrLines]

theorem listing_cons_eq_some_iff {i : Instr} {is : List Instr} {text : Text} : listing (i :: is) = some text ↔
    ∃ l t, instrText i = some l ∧ listing is = some t ∧ l ++ '\n' :: t = text := by
  rw [listing]
  cases instrText i <;> cases listing is <;> simp

theorem exists_listing {is : List Instr} (h : ∀ i ∈ is, i.hasMnemonic = true) : ∃ text, listing is = some text := by
  induction is with
  | nil => exact ⟨[], rfl⟩
  | cons i is ih =>
    obtain ⟨hi, his⟩ := List.forall_mem_cons.mp h
    obtain ⟨l, hl⟩ := exists_instrText hi
    obtain ⟨t, ht⟩ := ih his
    exact ⟨_, listing_cons_eq_some_iff.mpr ⟨l, t, hl, ht, rfl⟩⟩

/-- The lines of a listing read back as its instructions, one each. -/
theorem instrLines_of_listing {is : List Instr} {text : Text} (h : listing is = some text) :
    List.Forall₂ (fun l i => lineInstr l = .ok i) (instrLines text) is := by
  induction is generalizing text with
  | nil =>
    cases h
    exact .nil
  | cons i is ih =>
    obtain ⟨l, t, hl, ht, rfl⟩ := listing_cons_eq_some_iff.mp h
    rw [instrLines_append_newline (newline_notMem_instrText hl) (skipped_instrText hl)]
    exact .cons (lineInstr_instrText hl) (ih ht)

/-- Settles O57: every line of a listing assembles to its instruction (`lineInstr_instrText`). -/
theorem assemblerInvertsListing : Obligations.AssemblerInvertsListing :=
  ⟨fun _ h => exists_listing h, fun is text h => (assemble_eq_ok_iff text _).mpr ⟨is, instrLines_of_listing h, rfl⟩⟩

end Sys2Proof.Machine
end

section
/-! NOP, MOV, ADD and SUB (40 R90 to R95): their encoding, what their register write leaves unchanged, and the flag
pairs of ADD and SUB. -/

namespace Sys2Proof.Machine

/-- The canonical encoding carries the canonical fields (30_encoding R73). -/
theorem encodedAs_encodeFields (i : Instr) : EncodedAs i (encodeFields i).opcode.toNat (encodeFields i).rd
    (encodeFields i).rs (encodeFields i).operand :=
  ⟨hasFields_bytes (encodeFields i), rfl⟩

/-- A fetch that avoids the port takes no input. -/
theorem Fetches.inQ_of_avoidsPort {s after : State} {byte1 byte2 : Byte} (h : Fetches s byte1 byte2 after)
    (havoid : FetchAvoidsPort s) : after.inQ = s.inQ := by
  obtain ⟨-, hf⟩ := h
  obtain ⟨h1, h2⟩ := havoid
  rw [fetch_plain s h1 h2] at hf
  cases hf
  rfl

theorem decode_nop {byte1 : Byte} {rd rs : Reg} (h : HasFields byte1 0 rd rs) (byte2 : Byte) :
    decode byte1 byte2 = .nop := by
  simp [decode_of_hasFields h, Fields.instr]

theorem decode_mov {byte1 : Byte} {rd rs : Reg} (h : HasFields byte1 1 rd rs) (byte2 : Byte) :
    decode byte1 byte2 = .mov rd rs := by
  simp [decode_of_hasFields h, Fields.instr]

theorem decode_add {byte1 : Byte} {rd rs : Reg} (h : HasFields byte1 3 rd rs) (byte2 : Byte) :
    decode byte1 byte2 = .add rd rs := by
  simp [decode_of_hasFields h, Fields.instr]

theorem decode_sub {byte1 : Byte} {rd rs : Reg} (h : HasFields byte1 4 rd rs) (byte2 : Byte) :
    decode byte1 byte2 = .sub rd rs := by
  simp [decode_of_hasFields h, Fields.instr]

/-- Settles O14: NOP runs in the dispatch state and leaves it as it is. -/
theorem nopOnlyAdvances : Obligations.NopOnlyAdvances := by
  refine ⟨exec_eq .nop, fun s byte1 byte2 after rd rs hf hop => ⟨?_, hf.inQ_of_avoidsPort⟩,
    fun _ byte2 _ _ hop => decode_nop hop byte2, encodedAs_encodeFields .nop⟩
  rw [step_of_fetches hf, decode_nop hop, effect_nop]

/-- Writing back what a register holds changes nothing. -/
theorem State.setReg_reg_self (s : State) (r : Reg) : s.setReg r (s.reg r) = s := by
  cases r <;> rfl

theorem State.sameOutside_setReg (s : State) (r : Reg) (v : Byte) : SameOutside s (s.setReg r v) :=
  ⟨rfl, State.setReg_cell s r v, rfl, rfl, rfl⟩

/-- Settles O15: MOV is one register write, and with `rd = rs` it writes back what the register holds. -/
theorem movCopiesRegister : Obligations.MovCopiesRegister := by
  refine ⟨fun rd rs s => ⟨_, exec_eq _ s, ?_⟩, fun _ byte2 _ _ hop => decode_mov hop byte2,
    fun rd rs => encodedAs_encodeFields (.mov rd rs)⟩
  rw [effect_mov]
  refine ⟨State.reg_setReg_self s rd _, fun q hq => State.reg_setReg_other s rd q _ hq, ?_,
    ⟨rfl, rfl⟩, rfl, State.sameOutside_setReg s rd _⟩
  rintro rfl q
  rw [State.setReg_reg_self]

/-- ADD and SUB both end in this write: a carry, a result and its Zero flag. All else is unchanged. -/
theorem State.frame_setRegZ_setC (s : State) (c : Bool) (r : Reg) (v : Byte) :
    SameRegsBut r s ((s.setC c).setRegZ r v) ∧ ((s.setC c).setRegZ r v).pc = s.pc ∧
      SameOutside s ((s.setC c).setRegZ r v) := by
  refine ⟨fun q hq => ?_, rfl, rfl, fun _ => rfl, rfl, rfl, rfl⟩
  rw [State.reg_setRegZ_other _ r q v hq, State.setC_reg]

/-- Settles O16: the stored byte by `sumByte_toNat`, the flags by `addCarry_iff` and `zeroFlag_iff`. -/
theorem addWrapsAndSetsFlags : Obligations.AddWrapsAndSetsFlags := by
  refine ⟨fun rd rs s => ⟨_, exec_eq _ s, ?_⟩, fun _ byte2 _ _ hop => decode_add hop byte2,
    fun rd rs => encodedAs_encodeFields (.add rd rs)⟩
  rw [effect_add, State.reg_setRegZ_self]
  exact ⟨sumByte_toNat _ _, addCarry_iff _ _, zeroFlag_iff _, State.frame_setRegZ_setC s _ rd _⟩

/-- The exact difference is negative exactly if a borrow occurred. -/
theorem subBorrow_iff_sub_neg (a b : Byte) : subBorrow a b = true ↔ (a.toNat : Int) - (b.toNat : Int) < 0 := by
  rw [subBorrow_iff]
  omega

/-- Settles O17: the stored byte by `differenceByte_toNat`, the flags by `subBorrow_iff` and `zeroFlag_iff`. -/
theorem subWrapsAndSetsBorrow : Obligations.SubWrapsAndSetsBorrow := by
  refine ⟨fun rd rs s => ⟨_, exec_eq _ s, ?_⟩, fun _ byte2 _ _ hop => decode_sub hop byte2,
    fun rd rs => encodedAs_encodeFields (.sub rd rs)⟩
  rw [effect_sub, State.reg_setRegZ_self]
  exact ⟨differenceByte_toNat _ _, subBorrow_iff_sub_neg _ _, zeroFlag_iff _, State.frame_setRegZ_setC s _ rd _⟩

theorem zeroFlag_sumByte (a b : Byte) :
    zeroFlag (sumByte a b) = true ↔ a.toNat + b.toNat = 0 ∨ a.toNat + b.toNat = 256 := by
  rw [zeroFlag_iff, sumByte_eq_zero]

/-- Equal operands are what SUB's Zero flag tells, whatever the borrow. -/
theorem zeroFlag_differenceByte (a b : Byte) : zeroFlag (differenceByte a b) = true ↔ a.toNat = b.toNat := by
  rw [zeroFlag_iff, differenceByte_eq_zero, BitVec.toNat_inj]

/-- Settles O18: both flags as conditions on the two operands (`zeroFlag_sumByte`, `addCarry_iff`,
`zeroFlag_differenceByte`, `subBorrow_iff`); each row is then arithmetic. -/
theorem arithmeticFlagPairs : Obligations.ArithmeticFlagPairs := by
  refine fun rd rs s => ⟨_, _, exec_eq _ s, exec_eq _ s, ?_⟩
  simp only [effect_add, effect_sub, State.setRegZ_z, State.setRegZ_c, State.setC_c, ← Bool.not_eq_true,
    zeroFlag_sumByte, addCarry_iff, zeroFlag_differenceByte, subBorrow_iff, ← BitVec.toNat_inj, BitVec.toNat_ofNat]
  and_intros <;> omega

end Sys2Proof.Machine
end

section
/-! LDI, LDR and STR (41 R98 to R101): their encoding, the byte a load gives and the byte a store leaves, each told by
whether its address is redirected. -/

namespace Sys2Proof.Machine

theorem decode_ldi {byte1 : Byte} {rd rs : Reg} (h : HasFields byte1 5 rd rs) (byte2 : Byte) :
    decode byte1 byte2 = .ldi rd byte2 := by
  simp [decode_of_hasFields h, Fields.instr]

theorem decode_ldr {byte1 : Byte} {rd rs : Reg} (h : HasFields byte1 6 rd rs) (byte2 : Byte) :
    decode byte1 byte2 = .ldr rd byte2 := by
  simp [decode_of_hasFields h, Fields.instr]

theorem decode_str {byte1 : Byte} {rd rs : Reg} (h : HasFields byte1 7 rd rs) (byte2 : Byte) :
    decode byte1 byte2 = .str rs byte2 := by
  simp [decode_of_hasFields h, Fields.instr]

theorem State.sameRegsBut_setRegZ (s : State) (r : Reg) (v : Byte) : SameRegsBut r s (s.setRegZ r v) :=
  fun q hq => State.reg_setRegZ_other s r q v hq

theorem readsPort_of_not {s : State} {a : Byte} (h : ¬(s.ioAttached = true ∧ a = Config.inPort)) :
    readsPort s a = false :=
  Bool.eq_false_of_not_eq_true (mt (readsPort_iff s a).mp h)

theorem writesPort_of_not {s : State} {a : Byte} (h : ¬(s.ioAttached = true ∧ a = Config.outPort)) :
    writesPort s a = false :=
  Bool.eq_false_of_not_eq_true (mt (writesPort_iff s a).mp h)

/-- The byte a read gives. -/
theorem memRead_fst_eq (a : Byte) (s : State) : (memRead a s).1 =
    if s.ioAttached = true ∧ a = Config.inPort then s.inQ.headD Config.emptyInput else s.cell a := by
  split
  case isTrue hport => rw [memRead_of_readsPort ((readsPort_iff s a).mpr hport)]
  case isFalse hplain => rw [memRead_plain a s (readsPort_of_not hplain)]

/-- What a write leaves in the cell it addresses: a redirected one does not reach the cell. -/
theorem memWrite_cell_self (a v : Byte) (s : State) : (memWrite a v s).cell a =
    if s.ioAttached = true ∧ a = Config.outPort then s.cell a else v := by
  split
  case isTrue hport => rw [memWrite_emit a v s ((writesPort_iff s a).mpr hport), State.emit_cell]
  case isFalse hplain => rw [memWrite_plain a v s (writesPort_of_not hplain), cell_setCell_self]

/-- Settles O19: LDI is one write of a register and its Zero flag. -/
theorem ldiLoadsImmediate : Obligations.LdiLoadsImmediate := by
  refine ⟨fun rd imm s => ⟨_, exec_eq _ s, ?_⟩, fun _ byte2 _ _ hop => decode_ldi hop byte2,
    fun rd imm => encodedAs_encodeFields (.ldi rd imm)⟩
  rw [effect_ldi]
  exact ⟨State.reg_setRegZ_self s rd imm, zeroFlag_iff imm, rfl, State.sameRegsBut_setRegZ s rd imm, rfl,
    rfl, State.setRegZ_cell s rd imm, rfl, rfl, rfl⟩

/-- Settles O20: the loaded byte and the queue by the three cases of a read; the frame is that of one register write. -/
theorem ldrLoadsByte : Obligations.LdrLoadsByte := by
  refine ⟨fun rd addr s => ⟨_, exec_eq _ s, ?_⟩, fun _ byte2 _ _ hop => decode_ldr hop byte2,
    fun rd addr => encodedAs_encodeFields (.ldr rd addr)⟩
  rw [effect_ldr, State.reg_setRegZ_self, State.setRegZ_inQ]
  refine ⟨fun hio haddr hq => ?empty, fun b q hio haddr hq => ?pop, fun hplain => ?plain, zeroFlag_iff _, rfl,
    State.sameRegsBut_setRegZ _ rd _, rfl, rfl, fun _ => rfl, rfl, rfl⟩
  case empty =>
    rw [memRead_empty addr s ((readsPort_iff s addr).mpr ⟨hio, haddr⟩) hq]
    exact ⟨rfl, hq⟩
  case pop =>
    rw [memRead_pop addr s b q ((readsPort_iff s addr).mpr ⟨hio, haddr⟩) hq]
    exact ⟨rfl, rfl⟩
  case plain =>
    rw [memRead_plain addr s (readsPort_of_not hplain)]
    exact ⟨rfl, rfl⟩

/-- Settles O21: the log and the cells by the two cases of a write; no write changes anything else. -/
theorem strStoresByte : Obligations.StrStoresByte := by
  refine ⟨fun rs addr s => ⟨_, exec_eq _ s, ?_⟩, fun _ byte2 _ _ hop => decode_str hop byte2,
    fun rs addr => encodedAs_encodeFields (.str rs addr)⟩
  rw [effect_str]
  refine ⟨fun hport => ?emitted, fun hplain => ?stored, memWrite_reg addr _ s,
    ⟨memWrite_z addr _ s, memWrite_c addr _ s⟩, memWrite_pc addr _ s, memWrite_halted addr _ s,
    memWrite_inQ addr _ s, memWrite_ioAttached addr _ s⟩
  case emitted =>
    rw [memWrite_emit addr _ s ((writesPort_iff s addr).mpr hport)]
    exact ⟨rfl, State.emit_cell s _⟩
  case stored =>
    rw [memWrite_plain addr _ s (writesPort_of_not hplain)]
    exact ⟨rfl, cell_setCell_self s addr _, sameCellsBut_setCell s addr _⟩

/-- Settles O22: the load gives the queue's head or the cell (`memRead_fst_eq`), the store leaves queue and build alone
and the cell as `memWrite_cell_self` says. -/
theorem loadAfterStore : Obligations.LoadAfterStore := by
  refine fun rd rs addr s => ⟨_, _, exec_eq _ s, exec_eq _ _, ?_⟩
  rw [effect_ldr, State.reg_setRegZ_self, effect_str, memRead_fst_eq, memWrite_ioAttached, memWrite_inQ,
    memWrite_cell_self]
  rfl

end Sys2Proof.Machine
end

section
/-! JMP, WAIT, HLT and the unassigned opcodes (42_control R104 to R110). The key facts are the whole steps of JMP and
WAIT (`step_of_fetches_jmp`, `step_of_fetches_wait_empty`, `step_of_fetches_wait_ready`) and `stepN_of_step_self`: a
step that answers its own state goes on doing so. -/

namespace Sys2Proof.Machine

theorem stepN_of_step_self {s : State} (h : step s = .next s) (n : Nat) : stepN n s = .next s := by
  induction n with
  | zero => rfl
  | succ n ih => rw [stepN_succ_of_step h, ih]

/-- A fetch that avoids the port changes nothing. -/
theorem Fetches.eq_of_avoidsPort {s after : State} {byte1 byte2 : Byte} (h : Fetches s byte1 byte2 after)
    (havoid : FetchAvoidsPort s) : after = s := by
  rw [h.after_eq, h.inQ_of_avoidsPort havoid]

/-- The operand overrides the pre-advance. -/
theorem step_of_fetches_jmp {s after : State} {byte1 byte2 : Byte} {rd rs : Reg} (hf : Fetches s byte1 byte2 after)
    (hop : HasFields byte1 8 rd rs) : step s = .next { s with pc := byte2, inQ := after.inQ } := by
  rw [step_of_fetches hf, decode_jmp hop, effect_jmp]
  rfl

/-- Settles O24: JMP writes pc and nothing else; away from the port a JMP to pc writes back what pc holds. -/
theorem jmpSetsProgramCounter : Obligations.JmpSetsProgramCounter := by
  refine ⟨fun addr => exec_eq (.jmp addr),
    fun s byte1 byte2 after rd rs hf hop => ⟨step_of_fetches_jmp hf hop, fun havoid htarget => ?_⟩,
    fun _ byte2 _ _ hop => decode_jmp hop byte2, fun addr => encodedAs_encodeFields (.jmp addr)⟩
  rw [step_of_fetches_jmp hf hop, htarget, hf.inQ_of_avoidsPort havoid]

/-- Settles O25: the step answers its own state. -/
theorem jmpToItselfLoopsForever : Obligations.JmpToItselfLoopsForever := fun _ _ _ _ hf hop =>
  stepN_of_step_self (step_of_fetches_jmp hf hop)

theorem exec_wait_of_inEmpty {s : State} (h : inEmpty s = true) :
    exec .wait s = .next { s with pc := s.pc - 2#8 } := by
  rw [exec_eq, effect_wait, if_pos h]
  rfl

theorem exec_wait_of_not_inEmpty {s : State} (h : ¬inEmpty s = true) : exec .wait s = .next s := by
  rw [exec_eq, effect_wait, if_neg h]
  rfl

/-- With a channel WAIT's test is that of the queue. -/
theorem inEmpty_iff_of_attached {s : State} (h : s.ioAttached = true) : inEmpty s = true ↔ s.inQ = [] := by
  simp [inEmpty_iff, h]

theorem Fetches.ioAttached {s after : State} {byte1 byte2 : Byte} (h : Fetches s byte1 byte2 after) :
    after.ioAttached = s.ioAttached := by
  rw [h.after_eq]

section
variable {s after : State} {byte1 byte2 : Byte} {rd rs : Reg} (hf : Fetches s byte1 byte2 after)
  (hop : HasFields byte1 14 rd rs)
include hf hop

/-- The rewind undoes the pre-advance. -/
theorem step_of_fetches_wait_empty (h : inEmpty after = true) : step s = .next { s with inQ := after.inQ } := by
  rw [step_of_fetches hf, decode_wait hop, effect_wait, inEmpty_dispatch_of_fetches hf, if_pos h,
    BitVec.add_sub_cancel]
  rfl

theorem step_of_fetches_wait_ready (h : ¬inEmpty after = true) :
    step s = .next { s with pc := s.pc + 2#8, inQ := after.inQ } := by
  rw [step_of_fetches hf, decode_wait hop, effect_wait, inEmpty_dispatch_of_fetches hf, if_neg h]
  rfl

/-- Where the fetch takes no input, a WAIT that finds nothing stays for ever. -/
theorem stepN_of_fetches_wait_empty (havoid : FetchAvoidsPort s) (h : inEmpty s = true) (n : Nat) :
    stepN n s = .next s := by
  obtain rfl := hf.eq_of_avoidsPort havoid
  exact stepN_of_step_self (step_of_fetches_wait_empty hf hop h) n

end

/-- Settles O26: with a channel WAIT's test is that of the queue, and the fetch keeps the channel. -/
theorem waitRewindsOnEmptyQueue : Obligations.WaitRewindsOnEmptyQueue := by
  refine ⟨fun s hio => ?dispatch, fun s byte1 byte2 after rd rs hio hf hop => ?whole,
    fun _ byte2 _ _ hop => decode_wait hop byte2, encodedAs_encodeFields .wait⟩
  case dispatch =>
    rw [← inEmpty_iff_of_attached hio, ne_eq, ← inEmpty_iff_of_attached hio]
    exact ⟨exec_wait_of_inEmpty, exec_wait_of_not_inEmpty⟩
  case whole =>
    have hafter := inEmpty_iff_of_attached (hf.ioAttached.trans hio)
    refine ⟨fun hq => ?_, fun hq => step_of_fetches_wait_ready hf hop (mt hafter.mp hq),
      fun havoid => ⟨hf.inQ_of_avoidsPort havoid, fun hq => ?_⟩⟩
    · rw [step_of_fetches_wait_empty hf hop (hafter.mpr hq), hq]
    · exact stepN_of_fetches_wait_empty hf hop havoid ((inEmpty_iff_of_attached hio).mpr hq)

/-- Settles O27: without a channel WAIT finds nothing and no fetch takes input. -/
theorem waitWithoutChannelNeverPasses : Obligations.WaitWithoutChannelNeverPasses := by
  have hempty {s : State} (hio : s.ioAttached = false) : inEmpty s = true := (inEmpty_iff s).mpr (.inl hio)
  refine ⟨fun s hio => exec_wait_of_inEmpty (hempty hio), fun s byte1 byte2 after rd rs hio hf hop => ?_⟩
  have havoid : FetchAvoidsPort s := ⟨readsPort_of_unattached hio _, readsPort_of_unattached hio _⟩
  exact stepN_of_fetches_wait_empty hf hop havoid (hempty hio)

/-- Settles O28: at 0xEF the fetch takes the queue's head as the operand, and WAIT tests what is left. -/
theorem waitAtInputPortEatsItsInput : Obligations.WaitAtInputPortEatsItsInput := by
  intro s rd rs hio hrun hpc hop
  have hport : readsPort s (s.pc + 1#8) = true := (readsPort_iff s _).mpr ⟨hio, by rw [hpc]; decide⟩
  have hf : Fetches s (s.cell s.pc) (s.inQ.headD Config.emptyInput) { s with inQ := s.inQ.drop 1 } :=
    ⟨hrun, fetch_of_byte2_port hport⟩
  have hafter := inEmpty_iff_of_attached (hf.ioAttached.trans hio)
  rw [← hpc] at hop
  refine ⟨fun b hq => ?_, fun b b' q hq => ?_⟩
  · rw [step_of_fetches_wait_empty hf hop (hafter.mpr (by simp [hq])), hq]
    rfl
  · rw [step_of_fetches_wait_ready hf hop (mt hafter.mp (by simp [hq])), hq, hpc]
    rfl

theorem decode_hlt {byte1 : Byte} {rd rs : Reg} (h : HasFields byte1 15 rd rs) (byte2 : Byte) :
    decode byte1 byte2 = .hlt := by
  simp [decode_of_hasFields h, Fields.instr]

theorem step_of_fetches_hlt {s after : State} {byte1 byte2 : Byte} {rd rs : Reg} (hf : Fetches s byte1 byte2 after)
    (hop : HasFields byte1 15 rd rs) :
    step s = .next { s with halted := true, pc := s.pc + 2#8, inQ := after.inQ } := by
  rw [step_of_fetches hf, decode_hlt hop, effect_hlt]
  rfl

/-- `run` ends with the step that halts the machine. -/
theorem RunReturns.of_step {s t : State} (h : step s = .next t) (ht : t.halted = true) : RunReturns s t :=
  (runReturns_iff_stepN s t).mpr ⟨1, stepN_succ_of_step h 0, ht⟩

/-- Settles O30: the step leaves a halted state, where `run` ends and no further step does anything. -/
theorem hltHaltsTwoPastItself : Obligations.HltHaltsTwoPastItself := by
  refine ⟨exec_eq .hlt, fun s byte1 byte2 after rd rs hf hop => ?_, fun _ byte2 _ _ hop => decode_hlt hop byte2,
    encodedAs_encodeFields .hlt⟩
  have hstep := step_of_fetches_hlt hf hop
  exact ⟨_, rfl, hstep, .of_step hstep rfl, stepN_of_halted rfl, hf.inQ_of_avoidsPort⟩

/-- An instruction without a mnemonic is one of the six unassigned ones. -/
theorem mem_unassigned_iff (i : Instr) :
    i ∈ [.unassigned2, .unassigned9, .unassignedA, .unassignedB, .unassignedC, .unassignedD] ↔
      i.hasMnemonic = false := by
  cases i <;> simp [Instr.hasMnemonic]

theorem effect_of_no_mnemonic {i : Instr} (h : i.hasMnemonic = false) (s : State) : effect i s = s := by
  cases i with
  | unassigned2 | unassigned9 | unassignedA | unassignedB | unassignedC | unassignedD => rfl
  | _ => cases h

theorem hasMnemonic_decode_of_unassigned {byte1 : Byte} {op : Nat} {rd rs : Reg} (h : HasFields byte1 op rd rs)
    (hop : op ∈ [2, 9, 10, 11, 12, 13]) (byte2 : Byte) : (decode byte1 byte2).hasMnemonic = false := by
  rw [decode_of_hasFields h]
  fin_cases hop <;> simp [Fields.instr, Instr.hasMnemonic]

/-- Settles O31: the six opcodes select the instructions without a mnemonic, and these leave the dispatch state as it
is. -/
theorem unassignedOpcodesOnlyAdvance : Obligations.UnassignedOpcodesOnlyAdvance := by
  refine ⟨fun s => ⟨exec_eq _ s, exec_eq _ s, exec_eq _ s, exec_eq _ s, exec_eq _ s, exec_eq _ s⟩,
    fun s byte1 byte2 after op rd rs hf h hop => ⟨?_, hf.inQ_of_avoidsPort⟩,
    fun byte1 byte2 op rd rs h hop => (mem_unassigned_iff _).mpr (hasMnemonic_decode_of_unassigned h hop byte2)⟩
  rw [step_of_fetches hf, effect_of_no_mnemonic (hasMnemonic_decode_of_unassigned h hop byte2)]

end Sys2Proof.Machine
end

section
/-! No exceptions (60 R112, R127): every instruction, every step and every move of the host answers a next state, so no
schedule stops the machine (70 R138). -/

namespace Sys2Proof.Machine

/-- A fault would have to be one of the causes, and the set of causes is empty. -/
theorem Fault.elim (r : Fault) : False := nomatch r

/-- Settles O5: `exec` answers by one equation over all instructions (`exec_eq`), and a step is such an answer or, of a
halted machine, the state itself. -/
theorem machineNeverFaultsOrRefuses : Obligations.MachineNeverFaultsOrRefuses :=
  ⟨Fault.elim, fun i s => ⟨effect i s, exec_eq i s⟩, exists_step_eq_next⟩

/-- The CPU's step is total, and the host's moves have no other outcome. -/
theorem exists_applyMove_eq_next (m : Move) (s : State) : ∃ t, applyMove m s = .next t := by
  cases m with
  | step => exact exists_step_eq_next s
  | feed bytes => exact ⟨feedInput bytes s, rfl⟩
  | load bytes => exact ⟨loadProgram bytes s, rfl⟩
  | reset => exact ⟨hostReset s, rfl⟩

/-- Settles O6: each move answers, so the induction over the schedule (`exists_applyMoves_next`) needs no invariant
beyond the trivial one. -/
theorem everyScheduleAnswers : Obligations.EveryScheduleAnswers := by
  intro ms s
  obtain ⟨t, ht, -⟩ := exists_applyMoves_next (P := fun _ => True) ms
    (fun m _ u _ => (exists_applyMove_eq_next m u).imp fun _ hu => ⟨hu, trivial⟩) (s := s) trivial
  exact ⟨t, ht⟩

end Sys2Proof.Machine
end

section
/-! The host and the machine between steps (70 R131 to R138): feeding input, a WAIT that the fed input releases, what the
accessors show, and `load_program`. The key facts about a load are `loadProgram_eq`, which lists what it can change, and
`loadProgram_concat`, which makes one more byte one more bus write; each clause about cells or log is then an induction
over the image from its end. -/

namespace Sys2Proof.Machine

/-- A character of code 0 to 255 is fed as its code, whatever FEED_WIDE_CHAR is. -/
theorem feedByte_of_le (wide : Config.FeedWideChar) {ch : Char} (h : ch.toNat ≤ 255) :
    feedByte wide ch = BitVec.ofNat 8 ch.toNat := if_pos h

/-- Settles O53: `feed_input` is the queue's append, and narrow characters never reach the open parameter. -/
theorem feedInputAppends : Obligations.FeedInputAppends := by
  refine ⟨fun _ _ => rfl, fun wide text s hnarrow => ?_⟩
  rw [feedText, List.map_congr_left fun ch hch => feedByte_of_le wide (hnarrow ch hch)]
  rfl

/-- A running machine whose fetch avoids the port fetches the two cells at pc and stays as it is. -/
theorem FetchAvoidsPort.fetches {s : State} (havoid : FetchAvoidsPort s) (hrun : s.halted = false) :
    Fetches s (s.cell s.pc) (s.cell (s.pc + 1#8)) s := by
  obtain ⟨h1, h2⟩ := havoid
  exact ⟨hrun, fetch_plain s h1 h2⟩

/-- Settles O29: WAIT's test fails as long as nothing is queued; feeding changes the queue alone, so the next step
fetches the same WAIT and finds the queue not empty. -/
theorem waitSpinsUntilHostFeeds : Obligations.WaitSpinsUntilHostFeeds := by
  refine fun s rd rs hio hrun havoid hop hq => ⟨fun n => ?spin, fun b bs => ?pass⟩
  case spin =>
    exact stepN_of_fetches_wait_empty (havoid.fetches hrun) hop havoid ((inEmpty_iff_of_attached hio).mpr hq) n
  case pass =>
    have hqueue : (feedInput (b :: bs) s).inQ = b :: bs := by rw [feedInput, State.feed_inQ, hq, List.nil_append]
    have havoid' : FetchAvoidsPort (feedInput (b :: bs) s) := havoid
    have hready : ¬inEmpty (feedInput (b :: bs) s) = true := by
      rw [inEmpty_iff_of_attached (s := feedInput (b :: bs) s) hio, hqueue]
      exact List.cons_ne_nil b bs
    rw [step_of_fetches_wait_ready (havoid'.fetches hrun) hop hready, hqueue]
    rfl

theorem observe_cells_getElem? (s : State) (a : Byte) : (observe s).cells[a.toNat]? = some (s.cell a) := by
  have hrange : (List.range Config.memSize)[a.toNat]? = some a.toNat := List.getElem?_range a.isLt
  rw [observe, List.getElem?_map, hrange, Option.map_some, BitVec.ofNat_toNat, BitVec.setWidth_eq]

/-- Settles O55: the view lists the backing cells by address and has no field for the queue. -/
theorem accessorsShowBackingCells : Obligations.AccessorsShowBackingCells := fun s _ a =>
  ⟨observe_cells_getElem? s a, rfl, rfl⟩

/-- A bus write of a byte is a MemWrite of that byte: the value's mask does nothing. -/
theorem busWrite_byte (i : Nat) (v : Byte) (s : State) :
    busWrite i v.toNat s = memWrite (BitVec.ofNat 8 i) v s := by
  rw [busWrite, BitVec.ofNat_toNat, BitVec.setWidth_eq]

/-- A write changes no cell but the one it addresses. -/
theorem sameCellsBut_memWrite (a v : Byte) (s : State) : SameCellsBut a s (memWrite a v s) := by
  rcases memWrite_cases a v s with ⟨_, hw⟩ | ⟨_, hw⟩
  · rw [hw]
    exact sameCellsBut_setCell s a v
  · rw [hw]
    exact fun b _ => State.emit_cell s v b

theorem memWrite_outLog (a v : Byte) (s : State) :
    (memWrite a v s).outLog = s.outLog ++ if writesPort s a = true then [v] else [] := by
  rcases memWrite_cases a v s with ⟨hplain, hw⟩ | ⟨hport, hw⟩
  · rw [hw, hplain, if_neg Bool.false_ne_true, List.append_nil, State.setCell_outLog]
  · rw [hw, if_pos hport]
    rfl

/-- A load changes the memory array and the output log alone, as each of its writes does. -/
theorem loadProgram_eq (bytes : List Byte) (s : State) : loadProgram bytes s =
    { s with mem := (loadProgram bytes s).mem, outLog := (loadProgram bytes s).outLog } := by
  refine loadFrom_keeps (P := fun t => t = { s with mem := t.mem, outLog := t.outLog }) (fun a v t ht => ?_) bytes 0 rfl
  rw [memWrite_eq, ht]

theorem loadProgram_concat (bytes : List Byte) (b : Byte) (s : State) :
    loadProgram (bytes ++ [b]) s = busWrite bytes.length b.toNat (loadProgram bytes s) := by
  rw [loadProgram, loadFrom_append, Nat.zero_add]
  rfl

theorem writesPort_loadProgram (bytes : List Byte) (s : State) (a : Byte) :
    writesPort (loadProgram bytes s) a = writesPort s a := by
  rw [loadProgram_eq]
  rfl

/-- The byte loaded last changes no cell but the one at its address. -/
theorem loadProgram_concat_cell_of_ne {bytes : List Byte} {a : Byte} (h : a ≠ BitVec.ofNat 8 bytes.length) (b : Byte)
    (s : State) : (loadProgram (bytes ++ [b]) s).cell a = (loadProgram bytes s).cell a := by
  rw [loadProgram_concat, busWrite_byte, sameCellsBut_memWrite _ b _ a h]

/-- The byte loaded last lies at its address where the write is not redirected. -/
theorem loadProgram_concat_cell_self (bytes : List Byte) (b : Byte) {s : State}
    (h : writesPort s (BitVec.ofNat 8 bytes.length) = false) :
    (loadProgram (bytes ++ [b]) s).cell (BitVec.ofNat 8 bytes.length) = b := by
  rw [loadProgram_concat, busWrite_byte, memWrite_plain _ b _ ((writesPort_loadProgram bytes s _).trans h),
    cell_setCell_self]

theorem loadProgram_cell_of_length_le {bytes : List Byte} {a : Byte} (h : bytes.length ≤ a.toNat) (s : State) :
    (loadProgram bytes s).cell a = s.cell a := by
  induction bytes using List.reverseRecOn with
  | nil => rfl
  | append_singleton bytes b ih =>
    rw [List.length_append, List.length_singleton] at h
    have hne : a ≠ BitVec.ofNat 8 bytes.length := by bv_omega
    rw [loadProgram_concat_cell_of_ne hne, ih (by omega)]

/-- Settles O51: the append equation of the load, and what no bus write of it changes. -/
theorem loadProgramWritesInOrder : Obligations.LoadProgramWritesInOrder := by
  refine ⟨fun _ => rfl, loadProgram_concat, fun bytes s => ?_⟩
  have hcells (a : Byte) (h : bytes.length ≤ a.toNat) := loadProgram_cell_of_length_le h s
  rw [loadProgram_eq] at hcells ⊢
  exact ⟨fun _ => rfl, ⟨rfl, rfl⟩, rfl, rfl, rfl, hcells⟩

/-- Up to 256 bytes no address is written twice, so each byte stays where its own write has put it. -/
theorem loadProgram_cell_of_lt_length {bytes : List Byte} {s : State} (hlen : bytes.length ≤ 256) {a : Byte}
    (h : a.toNat < bytes.length) (hplain : writesPort s a = false) :
    (loadProgram bytes s).cell a = bytes[a.toNat] := by
  induction bytes using List.reverseRecOn with
  | nil => simp at h
  | append_singleton bytes b ih =>
    rw [List.length_append, List.length_singleton] at hlen h
    by_cases hlast : a.toNat = bytes.length
    · obtain rfl : a = BitVec.ofNat 8 bytes.length := by bv_omega
      rw [loadProgram_concat_cell_self bytes b hplain, List.getElem_concat_length hlast]
    · have hne : a ≠ BitVec.ofNat 8 bytes.length := by bv_omega
      rw [loadProgram_concat_cell_of_ne hne, ih (by omega) (by omega), List.getElem_append_left]

/-- One element more at the end of a list is seen at place `k` exactly if it lies there. -/
theorem take_one_drop_concat {α : Type} (l : List α) (k : Nat) (x : α) :
    ((l ++ [x]).drop k).take 1 = (l.drop k).take 1 ++ if l.length = k then [x] else [] := by
  rcases lt_trichotomy k l.length with hin | rfl | hpast
  · have hone : 1 ≤ (l.drop k).length := by rw [List.length_drop]; omega
    rw [List.drop_append_of_le_length hin.le, List.take_append_of_le_length hone, if_neg hin.ne', List.append_nil]
  · simp
  · rw [List.drop_eq_nil_of_le (by simpa using hpast), List.drop_eq_nil_of_le hpast.le, if_neg hpast.ne]
    rfl

/-- Up to 256 bytes the one write that can be redirected is that of byte 0xF1. -/
theorem loadProgram_outLog {bytes : List Byte} (s : State) (hlen : bytes.length ≤ 256) :
    (loadProgram bytes s).outLog =
      s.outLog ++ if s.ioAttached = true then (bytes.drop 0xF1).take 1 else [] := by
  induction bytes using List.reverseRecOn with
  | nil => simp [loadProgram, loadFrom]
  | append_singleton bytes b ih =>
    rw [List.length_append, List.length_singleton] at hlen
    have hport : writesPort s (BitVec.ofNat 8 bytes.length) = true ↔ s.ioAttached = true ∧ bytes.length = 0xF1 := by
      rw [writesPort_ofNat_iff, Nat.mod_eq_of_lt hlen]
    rw [loadProgram_concat, busWrite_byte, memWrite_outLog, writesPort_loadProgram, ih (by omega),
      take_one_drop_concat, List.append_assoc]
    by_cases hio : s.ioAttached = true <;> simp [hport, hio]

/-- Settles O52: the bytes by `loadProgram_cell_of_lt_length`, the log by `loadProgram_outLog`. -/
theorem loadedImageLiesAtZero : Obligations.LoadedImageLiesAtZero := fun _ s hlen =>
  ⟨fun _ h hplain => loadProgram_cell_of_lt_length hlen h hplain, loadProgram_outLog s hlen⟩

end Sys2Proof.Machine
end
